-- ==== Sys2Proof/Word.lean ====
section
/-! DEFINITION. The bit-vector types of PABD's fields (spec/00_scope.md R8, R9, R12, R13; spec/30_encoding.md R61, R66).
Bit 0 of every value is its least significant bit (R13). Counts, sizes and word indices are natural numbers (R12). -/

namespace Sys2Proof

/-- One byte of the little-endian byte view of storage (R46). -/
abbrev Byte := BitVec 8

/-- A 128-bit command word (R61). -/
abbrev CmdWord := BitVec 128

/-- An element count or element index, `INDEX_BITS = 64` bits, unsigned (R9, R62). -/
abbrev Index := BitVec 64

/-- A value or maximum value, `VALUE_BITS = 32` bits, unsigned (R8, R62). -/
abbrev Value := BitVec 32

/-- The data field of a response (R66). -/
abbrev RspData := BitVec 64

/-- A storage word of `W = WORD_BITS` bits (R7, R27). -/
abbrev StorageWord (W : Nat) := BitVec W

end Sys2Proof
end

