-- ==== Sys2Proof/Syntax.lean ====
section
/-! DEFINITION. The commands of PABD (spec/30_encoding.md R63, spec/opcode_table.json) and the lines of its assembly
language (R72). -/

namespace Sys2Proof

/-- The five commands, one constructor per row of the opcode table. An operand is the field of the command word that the
command uses, taken as it stands (R62); a field the command ignores is no operand (R69). -/
inductive Instr where
  /-- `CREATE`, `OP = 0x1`: element count `A`, maximum value `B` (R84). -/
  | create (a : Index) (b : Value)
  /-- `SET`, `OP = 0x2`: element index `A`, value `B` (R106). -/
  | set (a : Index) (b : Value)
  /-- `GET`, `OP = 0x3`: element index `A` (R124). -/
  | get (a : Index)
  /-- `DESTROY`, `OP = 0x4` (R140). -/
  | destroy
  /-- `SIZE`, `OP = 0x5` (R142). -/
  | size
  deriving DecidableEq, Repr

/-- One line of assembly as written, its operands any natural numbers (R72). -/
inductive AsmLine where
  /-- `CREATE <count>, <maxval>` -/
  | create (count maxval : Nat)
  /-- `SET <index>, <value>` -/
  | set (index value : Nat)
  /-- `GET <index>` -/
  | get (index : Nat)
  /-- `DESTROY` -/
  | destroy
  /-- `SIZE` -/
  | size
  deriving DecidableEq, Repr

end Sys2Proof
end

