-- ==== Sys2Proof/Decode.lean ====
section
/-! DEFINITION. The command word's fields, the decoder, total on every 128-bit word, and the encoder (spec/30_encoding.md
R61 to R70). -/

namespace Sys2Proof

/-- Field `A`, bits `[127:64]` (R61). -/
def cmdA (w : CmdWord) : Index := w.extractLsb' 64 64

/-- Field `B`, bits `[63:32]` (R61). -/
def cmdB (w : CmdWord) : Value := w.extractLsb' 32 32

/-- Field `RSVD`, bits `[31:4]` (R61). -/
def cmdRsvd (w : CmdWord) : BitVec 28 := w.extractLsb' 4 28

/-- Field `OP`, bits `[3:0]` (R61). -/
def cmdOp (w : CmdWord) : BitVec 4 := w.extractLsb' 0 4

/-- Why a word is no command. Either way the command port answers `ILLEGAL` (R64, R65). -/
inductive DecodeError where
  /-- `RSVD != 0`, whatever the `OP` (R64). -/
  | reservedBits
  /-- `OP = 0x0`, or `OP` in `0x6` to `0xF` (R65). -/
  | reservedOpcode
  deriving DecidableEq, Repr

/-- `decode` (R68): one of the five commands, or the name of what makes the word illegal. -/
def decode (w : CmdWord) : Except DecodeError Instr :=
  if cmdRsvd w ≠ 0#28 then .error .reservedBits
  else if cmdOp w = 0x1#4 then .ok (.create (cmdA w) (cmdB w))
  else if cmdOp w = 0x2#4 then .ok (.set (cmdA w) (cmdB w))
  else if cmdOp w = 0x3#4 then .ok (.get (cmdA w))
  else if cmdOp w = 0x4#4 then .ok .destroy
  else if cmdOp w = 0x5#4 then .ok .size
  else .error .reservedOpcode

/-- `cmd_word = {A, B, RSVD, OP}` (R61). -/
def cmdWordOf (a : Index) (b : Value) (rsvd : BitVec 28) (op : BitVec 4) : CmdWord :=
  (a ++ b ++ rsvd ++ op : BitVec (64 + 32 + 28 + 4))

/-- The opcode of a command (R63). -/
def Instr.opcode : Instr → BitVec 4
  | .create _ _ => 0x1#4
  | .set _ _ => 0x2#4
  | .get _ => 0x3#4
  | .destroy => 0x4#4
  | .size => 0x5#4

/-- The command word an assembler writes: `RSVD = 0`, and 0 in a field the command ignores (R61, R63, R72). -/
def encode (i : Instr) : CmdWord :=
  match i with
  | .create a b => cmdWordOf a b 0#28 (Instr.opcode i)
  | .set a b => cmdWordOf a b 0#28 (Instr.opcode i)
  | .get a => cmdWordOf a 0#32 0#28 (Instr.opcode i)
  | .destroy => cmdWordOf 0#64 0#32 0#28 (Instr.opcode i)
  | .size => cmdWordOf 0#64 0#32 0#28 (Instr.opcode i)

/-- The command word whose low `nbits` bits are those of `w` and whose other bits are 0. A command is one 128-bit word
(R70), numbered as the opcode table numbers it. -/
def tableWord (nbits w : Nat) : CmdWord := BitVec.ofNat 128 (w % 2 ^ nbits)

/-- The command the decoder reads from the opcode table's bits `w`. -/
def decodeTableWord (nbits w : Nat) : Option Instr :=
  match decode (tableWord nbits w) with
  | .ok i => some i
  | .error _ => none

end Sys2Proof
end

