-- ==== Sys2Proof/Config.lean ====
section
/-! DEFINITION. The parameters of one PABD instance (spec/00_scope.md R7, R10, R11). They are fixed for the instance's
whole life. The spec leaves no value free, so this file declares no opaque constant. -/

namespace Sys2Proof

/-- The configuration `(WORD_BITS, MAX_WORDS)` of R11. `WORD_BITS` is a power of two of at least 32 (R7), so it is held
by its exponent above 5: every `Config` has a legal word width. The legality of `MAX_WORDS` is `Config.legal`. -/
structure Config where
  /-- `WORD_BITS = 32 * 2 ^ widthExp`: 0 gives 32-bit words, 1 gives the default 64 (R7). -/
  widthExp : Nat
  /-- `MAX_WORDS`, the number of storage words (R10). -/
  maxWords : Nat
  deriving DecidableEq, Repr

/-- `WORD_BITS` (R7). -/
def Config.wordBits (c : Config) : Nat := 32 * 2 ^ c.widthExp

/-- `WORD_BITS div 8`, the bytes of one storage word (R28, R142). -/
def Config.wordBytes (c : Config) : Nat := c.wordBits / 8

/-- The width `ceil(log2(MAX_WORDS + 1))` of the register `WORD_COUNT` (R25). -/
def Config.wordCountBits (c : Config) : Nat := Nat.clog 2 (c.maxWords + 1)

/-- The configuration of `State.reset`: `WORD_BITS = 64`, the spec's default (R7), and the largest `MAX_WORDS` that R10
allows at that width, so that storage 'is large enough for every CREATE' of the spec's vectors that name no size.
DESIGN CHOICE, unsafe (log entry 1): the spec leaves `MAX_WORDS` open. No statement rests on it. -/
def Config.reference : Config := { widthExp := 1, maxWords := 2 ^ 61 - 1 }

end Sys2Proof
end

