-- ==== Sys2Proof/Machine/State.lean ====
section
/-! DEFINITION. The state of PABD: the architectural record of spec/10_state.md R36, the response port's register, and the
model's own two fields (the configuration, log entry 2, and the host's inputs, log entry 6). Plain data. -/

namespace Sys2Proof.Machine

/-- The response statuses (spec/60_exceptions.md R150). Codes 6 and 7 are never sent, so they have no constructor. -/
inductive Status where
  /-- 0: the command completed. -/
  | ok
  /-- 1: the index is at or above `CAPACITY`, with an array present. -/
  | outOfRange
  /-- 2: the word count exceeds `MAX_WORDS`. -/
  | allocFail
  /-- 3: no array is present. -/
  | noArray
  /-- 4: an array is present already. -/
  | inUse
  /-- 5: `RSVD` is not 0 or `OP` is reserved. -/
  | illegal
  deriving DecidableEq, Repr

/-- A response `(status, data)` (spec/30_encoding.md R66). -/
structure Response where
  status : Status
  data : RspData
  deriving DecidableEq, Repr

/-- The levels the host drives on PABD's input ports at one edge (spec/30_encoding.md R67). -/
structure PortIn where
  /-- `rst` -/
  rst : Bool
  /-- `cmd_valid`: the host offers `cmd_word` -/
  cmdValid : Bool
  /-- `cmd_word` -/
  cmdWord : CmdWord
  /-- `rsp_ready`: the host takes the response -/
  rspReady : Bool
  deriving DecidableEq, Repr

/-- Storage as bytes of its little-endian view (spec/20_memory.md R46): (byte address, byte) pairs in the canonical form
`Mem.wf`. An address that is not listed reads as 0 (log entry 3: DESIGN CHOICE; no command observes it). -/
abbrev Mem := List Host.Cell

/-- The canonical form: addresses strictly rising, and no entry equal to what an unlisted address reads as, 0. -/
abbrev Mem.wf (m : Mem) : Prop :=
  List.Pairwise (fun p q : Host.Cell => p.1 < q.1) m ∧ ∀ c ∈ m, c.2 ≠ 0#8

/-- The machine's state. -/
structure State where
  /-- The instance's parameters, which no step changes (spec/00_scope.md R11; log entry 2: the model's own field). -/
  cfg : Config
  /-- `CFG_VALID`: an array is present (R22). -/
  cfgValid : Bool
  /-- `CAPACITY` (R23). -/
  capacity : BitVec 64
  /-- `BIT_WIDTH` (R24). -/
  bitWidth : BitVec 6
  /-- `WORD_COUNT` (R25). -/
  wordCount : Nat
  /-- `ERR_STICKY` (R26). -/
  errSticky : BitVec 6
  /-- The storage words `S[0..MAX_WORDS)`, as bytes (R27, R46). -/
  storage : Mem
  /-- The response offered to the host and not yet taken (R66, R67; log entry 7). -/
  rsp : Option Response
  /-- What the host drives at the coming edges, the next first (R67; log entry 6: the model's own field). -/
  inputs : List PortIn
  deriving DecidableEq, Repr

/-- Why the machine stops with a fault. -/
inductive Fault where
  /-- Raised by MemRead and MemWrite at a word index at or above `WORD_COUNT`, for which spec/00_scope.md R14 defines no
  access. Safe: the model stops where the spec says nothing. No state that meets spec/10_state.md R29 raises it. -/
  | wordNotLive
  deriving DecidableEq, Repr

/-- Why the machine refuses. -/
inductive Refusal where
  /-- An arm of exec that has no meaning yet. Safe. No arm answers it: every command has its meaning. -/
  | notModelled (mnemonic : String)
  deriving DecidableEq, Repr

/-- The state right after reset of an instance with parameters `c` (spec/10_state.md R35; spec/70_reset_and_hazards.md
R170). The storage, which reset does not write, is a draw in the spec; here nothing is listed (log entry 3). No
response is offered, and the host drives nothing (log entry 6). -/
def State.resetWith (c : Config) : State :=
  { cfg := c, cfgValid := false, capacity := 0#64, bitWidth := 0#6, wordCount := 0, errSticky := 0#6,
    storage := [], rsp := none, inputs := [] }

/-- The state right after reset of the reference instance: 64-bit words (R7), `MAX_WORDS` by log entry 1. -/
def State.reset : State := State.resetWith Config.reference

end Sys2Proof.Machine
end

