-- ==== Sys2Proof/Machine/Flags.lean ====
section
/-! DEFINITION. Status codes and the sticky error register, PABD's only flags (spec/10_state.md R26, R33;
spec/60_exceptions.md R150). -/

namespace Sys2Proof.Machine

/-- The code sent on `rsp_status` (R150). -/
def Status.code : Status → BitVec 3
  | .ok => 0#3
  | .outOfRange => 1#3
  | .allocFail => 2#3
  | .noArray => 3#3
  | .inUse => 4#3
  | .illegal => 5#3

/-- The bit of `ERR_STICKY` a status sets: bit `c` for error status `c`, none for `OK` (R26, R150). Bit 0 is never
among them. -/
def Status.stickyBit (c : Status) : BitVec 6 :=
  match c with
  | .ok => 0#6
  | .outOfRange | .allocFail | .noArray | .inUse | .illegal => 1#6 <<< c.code.toNat

/-- Set the sticky bit of a status; no bit is cleared (R26). -/
def State.setSticky (s : State) (c : Status) : State :=
  { s with errSticky := s.errSticky ||| c.stickyBit }

/-- The output port `err_sticky[5:0]`: `ERR_STICKY` with bit 0 hardwired to 0 (R26, R67). -/
def State.errStickyPort (s : State) : BitVec 6 := s.errSticky &&& 0b111110#6

end Sys2Proof.Machine
end

