-- ==== Sys2Proof/Machine/Ops.lean ====
section
/-! DEFINITION. The named operations over storage and over the response: bytes and words of storage (spec/20_memory.md
R40, R46), the primitives MemRead and MemWrite (spec/00_scope.md R14), zero fill, and completion of a command,
normal or by `raise Error(code)` (R15). -/

namespace Sys2Proof.Machine

/-- `M(n) = 2^n - 1`, the mask of the `n` low bits, as a `W`-bit value (spec/00_scope.md R13). -/
def lowMask (W n : Nat) : StorageWord W := BitVec.ofNat W (2 ^ n - 1)

/-- The byte at a byte address; 0 where nothing is listed. -/
def Mem.readByte : Mem → Nat → Byte
  | [], _ => 0#8
  | (x, u) :: m, a => if x = a then u else Mem.readByte m a

/-- Write one byte and keep the canonical form: the byte an unlisted address reads as removes the entry. -/
def Mem.writeByte : Mem → Nat → Byte → Mem
  | [], a, v => if v = 0#8 then [] else [(a, v)]
  | (x, u) :: m, a, v =>
    if x < a then (x, u) :: Mem.writeByte m a v
    else
      let above := if x = a then m else (x, u) :: m
      if v = 0#8 then above else (a, v) :: above

/-- The number whose little-endian bytes are the `n` bytes from address `a` (R46). -/
def Mem.readBytes (m : Mem) (a : Nat) : Nat → Nat
  | 0 => 0
  | n + 1 => 2 ^ 8 * Mem.readBytes m (a + 1) n + (Mem.readByte m a).toNat

/-- Store the `n` low bytes of `v` from address `a`, the least significant first (R46). -/
def Mem.writeBytes (m : Mem) (a : Nat) : Nat → Nat → Mem
  | 0, _ => m
  | n + 1, v => Mem.writeBytes (Mem.writeByte m a (BitVec.ofNat 8 v)) (a + 1) n (v / 2 ^ 8)

/-- Storage word `k`: its bytes lie at byte addresses `(W / 8) * k + n` (R40, R46). -/
def Mem.readWord (W : Nat) (m : Mem) (k : Nat) : StorageWord W :=
  BitVec.ofNat W (Mem.readBytes m (W / 8 * k) (W / 8))

/-- Replace storage word `k` (R14, R46). -/
def Mem.writeWord (W : Nat) (m : Mem) (k : Nat) (v : StorageWord W) : Mem :=
  Mem.writeBytes m (W / 8 * k) (W / 8) v.toNat

/-- `MemRead(k, WORD_BITS)`, defined for the live words `k < WORD_COUNT` (R14). -/
def memRead (W wordCount : Nat) (m : Mem) (k : Nat) : Except Fault (StorageWord W) :=
  if k < wordCount then .ok (Mem.readWord W m k) else .error .wordNotLive

/-- `MemWrite(k, WORD_BITS, v)`, defined for the live words `k < WORD_COUNT` (R14). -/
def memWrite (W wordCount : Nat) (m : Mem) (k : Nat) (v : StorageWord W) : Except Fault Mem :=
  if k < wordCount then .ok (Mem.writeWord W m k v) else .error .wordNotLive

/-- The zero fill of CREATE as the spec writes it: `for k in [0, wc): MemWrite(k, WORD_BITS, 0)` (R84). -/
def Mem.zeroFillLoop (W : Nat) (m : Mem) : Nat → Mem
  | 0 => m
  | wc + 1 => Mem.writeWord W (Mem.zeroFillLoop W m wc) wc (BitVec.ofNat W 0)

/-- The zero fill of CREATE in one sweep: no byte of words `0` to `wc - 1` stays listed (R84; log entry 10: the same
memory as `Mem.zeroFillLoop` gives). -/
def Mem.zeroFill (W : Nat) (m : Mem) (wc : Nat) : Mem :=
  m.filter (fun c => decide (W / 8 * wc ≤ c.1))

/-- `respond(status, data)`: the response is offered (R15, R66). -/
def State.respond (s : State) (status : Status) (data : RspData) : State :=
  { s with rsp := some { status := status, data := data } }

/-- `raise Error(code)`: set bit `code` of `ERR_STICKY`, make no other state change, and `respond(code, 0)` (R15; R151).
PABD's one way of taking an exception; there is no trap and no return from one (R154, R155). -/
def State.raiseError (s : State) (code : Status) : State :=
  (s.setSticky code).respond code 0#64

end Sys2Proof.Machine
end

