-- ==== Sys2Proof/Machine/Operands.lean ====
section
/-! DEFINITION. PABD's four functions: the bit-width calculator and the word-count calculator (spec/40_construction.md
R80, R81), the bit-address decoder (spec/41_write.md R100), and the masked writer and reader (R102, R103;
spec/42_read.md R120, R121). Beside them the bit stream they are specified by (spec/20_memory.md R40, R44). Products
and sums are exact natural numbers (spec/00_scope.md R12). -/

namespace Sys2Proof.Machine

/-- `ceil_div(a, b)`, for `b > 0` (R12). -/
def ceilDiv (a b : Nat) : Nat := (a + b - 1) / b

/-- `bitwidth(m)`: the position of the highest set bit plus one, and 1 for 0 (R80). -/
def bitwidth (m : Value) : Nat := if m = 0#32 then 1 else Nat.log2 m.toNat + 1

/-- `wordcount(n, w)` for words of `W` bits (R81). -/
def wordcount (W n w : Nat) : Nat := ceilDiv (n * w) W

/-- The outputs of the bit-address decoder (R100). -/
structure BitAddress where
  startBit : Nat
  wordIndex : Nat
  bitOffset : Nat
  split : Bool
  bitsInFirst : Nat
  bitsInSecond : Nat
  deriving DecidableEq, Repr

/-- `decode_addr(i, w)` for words of `W` bits (R100; the last two outputs in the single-word case by D33). -/
def decodeAddr (W i w : Nat) : BitAddress :=
  let startBit := i * w
  let bitOffset := startBit % W
  let split := decide (W < bitOffset + w)
  let bitsInFirst := if split then W - bitOffset else w
  { startBit := startBit
    wordIndex := startBit / W
    bitOffset := bitOffset
    split := split
    bitsInFirst := bitsInFirst
    bitsInSecond := if split then w - bitsInFirst else 0 }

/-- `v = B & M(w)`: the value operand of SET, truncated to the element's width (R106). -/
def maskedValue (W w : Nat) (b : Value) : StorageWord W := b.setWidth W &&& lowMask W w

/-- The new word of the single-word masked write (R102). -/
def writeSingle {W : Nat} (old : StorageWord W) (bitOffset w : Nat) (v : StorageWord W) : StorageWord W :=
  (old &&& ~~~(lowMask W w <<< bitOffset)) ||| (v <<< bitOffset)

/-- The new first word of the split-word masked write (R103). -/
def writeSplitFirst {W : Nat} (old0 : StorageWord W) (bitOffset b1 : Nat) (v : StorageWord W) : StorageWord W :=
  (old0 &&& lowMask W bitOffset) ||| ((v &&& lowMask W b1) <<< bitOffset)

/-- The new second word of the split-word masked write (R103). -/
def writeSplitSecond {W : Nat} (old1 : StorageWord W) (b1 b2 : Nat) (v : StorageWord W) : StorageWord W :=
  (old1 &&& ~~~(lowMask W b2)) ||| ((v >>> b1) &&& lowMask W b2)

/-- The single-word masked read (R120). -/
def readSingle {W : Nat} (word : StorageWord W) (bitOffset w : Nat) : StorageWord W :=
  (word >>> bitOffset) &&& lowMask W w

/-- The split-word masked read (R121). -/
def readSplit {W : Nat} (word0 word1 : StorageWord W) (bitOffset b1 b2 : Nat) : StorageWord W :=
  ((word0 >>> bitOffset) &&& lowMask W b1) ||| ((word1 &&& lowMask W b2) <<< b1)

/-- Write `v`, already masked to `w` bits, as element `i`: both words of a split write are read before either is written,
and both are written in the one step (R102, R103, R45). -/
def writeElement (W wordCount : Nat) (m : Mem) (i w : Nat) (v : StorageWord W) : Except Fault Mem :=
  let d := decodeAddr W i w
  match memRead W wordCount m d.wordIndex with
  | .error f => .error f
  | .ok old0 =>
    if d.split then
      match memRead W wordCount m (d.wordIndex + 1) with
      | .error f => .error f
      | .ok old1 =>
        match memWrite W wordCount m d.wordIndex (writeSplitFirst old0 d.bitOffset d.bitsInFirst v) with
        | .error f => .error f
        | .ok m1 =>
          memWrite W wordCount m1 (d.wordIndex + 1) (writeSplitSecond old1 d.bitsInFirst d.bitsInSecond v)
    else memWrite W wordCount m d.wordIndex (writeSingle old0 d.bitOffset w v)

/-- Read element `i` (R120, R121). -/
def readElement (W wordCount : Nat) (m : Mem) (i w : Nat) : Except Fault (StorageWord W) :=
  let d := decodeAddr W i w
  match memRead W wordCount m d.wordIndex with
  | .error f => .error f
  | .ok word0 =>
    if d.split then
      match memRead W wordCount m (d.wordIndex + 1) with
      | .error f => .error f
      | .ok word1 => .ok (readSplit word0 word1 d.bitOffset d.bitsInFirst d.bitsInSecond)
    else .ok (readSingle word0 d.bitOffset w)

/-- `bitAt(S, b) = S[b div WORD_BITS][b mod WORD_BITS]` (R40). -/
def bitAt (W : Nat) (m : Mem) (b : Nat) : Bool :=
  (Mem.readWord W m (b / W)).getLsbD (b % W)

/-- `sum over t in [0, n) of f(t) * 2^t`. -/
def bitSum (f : Nat → Bool) : Nat → Nat
  | 0 => 0
  | n + 1 => bitSum f n + (f n).toNat * 2 ^ n

/-- `elem(S, i)`, the abstract value of element `i` of width `w` (R44). -/
def elemAt (W : Nat) (m : Mem) (i w : Nat) : Nat :=
  bitSum (fun t => bitAt W m (i * w + t)) w

/-- `bitAt` of the state's storage (R40). -/
def State.bitAt (s : State) (b : Nat) : Bool := Sys2Proof.Machine.bitAt s.cfg.wordBits s.storage b

/-- `elem` of the state's storage at its `BIT_WIDTH` (R44). -/
def State.elem (s : State) (i : Nat) : Nat := elemAt s.cfg.wordBits s.storage i s.bitWidth.toNat

end Sys2Proof.Machine
end

