-- ==== Sys2Proof/Machine/Construction.lean ====
section
/-! DEFINITION. CREATE (spec/40_construction.md R82 to R85). -/

namespace Sys2Proof.Machine

/-- CREATE (R84): `IN_USE` when an array is present, `ALLOC_FAIL` when the word count exceeds `MAX_WORDS` (R82, R83), and
else a zero-filled array. `BIT_WIDTH` takes `bitwidth(B)`, which is at most 32 and fits its 6 bits (R24). -/
def execCreate (a : Index) (b : Value) (s : State) : Host.Outcome State Fault Refusal :=
  if s.cfgValid then .next (s.raiseError .inUse)
  else
    let bw := bitwidth b
    let wc := wordcount s.cfg.wordBits a.toNat bw
    if s.cfg.maxWords < wc then .next (s.raiseError .allocFail)
    else
      .next (State.respond
        { s with
          storage := Mem.zeroFill s.cfg.wordBits s.storage wc
          capacity := a
          bitWidth := BitVec.ofNat 6 bw
          wordCount := wc
          cfgValid := true } .ok 0#64)

end Sys2Proof.Machine
end

