-- ==== Sys2Proof/Machine/Read.lean ====
section
/-! DEFINITION. GET (spec/42_read.md R123 to R125). -/

namespace Sys2Proof.Machine

/-- GET (R124): `NO_ARRAY` with no array, `OUT_OF_RANGE` with data 0 for `A >= CAPACITY` (R123), and else the element's
value, zero-extended. -/
def execGet (a : Index) (s : State) : Host.Outcome State Fault Refusal :=
  if !s.cfgValid then .next (s.raiseError .noArray)
  else if s.capacity ≤ a then .next (s.raiseError .outOfRange)
  else
    match readElement s.cfg.wordBits s.wordCount s.storage a.toNat s.bitWidth.toNat with
    | .error f => .fault f
    | .ok v => .next (s.respond .ok (v.setWidth 64))

end Sys2Proof.Machine
end

