-- ==== Sys2Proof/Machine/Teardown.lean ====
section
/-! DEFINITION. DESTROY and SIZE (spec/43_teardown_accessor.md R140 to R143). -/

namespace Sys2Proof.Machine

/-- DESTROY (R140): a no-op with no array, and else the release of the configuration; storage and `ERR_STICKY` keep their
contents (R141). It always answers `OK`. -/
def execDestroy (s : State) : Host.Outcome State Fault Refusal :=
  if !s.cfgValid then .next (s.respond .ok 0#64)
  else
    .next (State.respond { s with cfgValid := false, capacity := 0#64, bitWidth := 0#6, wordCount := 0 } .ok 0#64)

/-- SIZE (R142): `NO_ARRAY` with no array, and else `WORD_COUNT * (WORD_BITS div 8)`, which fits the data field by the
constraint on `MAX_WORDS` (R10). -/
def execSize (s : State) : Host.Outcome State Fault Refusal :=
  if !s.cfgValid then .next (s.raiseError .noArray)
  else .next (s.respond .ok (BitVec.ofNat 64 (s.wordCount * s.cfg.wordBytes)))

end Sys2Proof.Machine
end

