-- ==== Sys2Proof/Machine/Write.lean ====
section
/-! DEFINITION. SET (spec/41_write.md R105 to R107). -/

namespace Sys2Proof.Machine

/-- SET (R106): `NO_ARRAY` with no array, `OUT_OF_RANGE` for `A >= CAPACITY` (R105), and else the masked write of
`B & M(BIT_WIDTH)`. A value of `2^BIT_WIDTH` or more is truncated, not an error. -/
def execSet (a : Index) (b : Value) (s : State) : Host.Outcome State Fault Refusal :=
  if !s.cfgValid then .next (s.raiseError .noArray)
  else if s.capacity ≤ a then .next (s.raiseError .outOfRange)
  else
    let w := s.bitWidth.toNat
    match writeElement s.cfg.wordBits s.wordCount s.storage a.toNat w (maskedValue s.cfg.wordBits w b) with
    | .error f => .fault f
    | .ok m => .next (State.respond { s with storage := m } .ok 0#64)

end Sys2Proof.Machine
end

