-- ==== Sys2Proof/Machine/Dispatch.lean ====
section
/-! DEFINITION. exec: one arm per command (spec/30_encoding.md R63). -/

namespace Sys2Proof.Machine

/-- The effect of one command, as one atomic step (spec/20_memory.md R45). -/
def exec (i : Instr) (s : State) : Host.Outcome State Fault Refusal :=
  match i with
  | .create a b => Sys2Proof.Machine.execCreate a b s
  | .set a b => Sys2Proof.Machine.execSet a b s
  | .get a => Sys2Proof.Machine.execGet a s
  | .destroy => Sys2Proof.Machine.execDestroy s
  | .size => Sys2Proof.Machine.execSize s

end Sys2Proof.Machine
end

