-- ==== Sys2Proof/Machine/Ports.lean ====
section
/-! DEFINITION. The ports of PABD (spec/30_encoding.md R67), reset (spec/70_reset_and_hazards.md R170, R171), and what one
edge does: a reset, the acceptance of a command, the taking of a response, or nothing. -/

namespace Sys2Proof.Machine

/-- Output `rsp_valid`: a response is offered; 0 during reset (R67, R170). -/
def State.rspValid (s : State) (p : PortIn) : Bool := !p.rst && s.rsp.isSome

/-- Output `cmd_ready`: 0 from the acceptance of a command until its response is taken, and 0 during reset (R67). -/
def State.cmdReady (s : State) (p : PortIn) : Bool := !p.rst && s.rsp.isNone

/-- The response on the ports `rsp_status` and `rsp_data` while `rsp_valid` is 1 (R67). While it is 0 the spec gives the two
ports no value, and the model answers none: where no response waits, and at an edge with `rst` 1 although one waits
(DESIGN CHOICE, safe: log entry 17). -/
def State.rspOffered (s : State) (p : PortIn) : Option Response := if s.rspValid p then s.rsp else none

/-- Output `rsp_status` (R67); none while `rsp_valid` is 0, also at a reset edge (DESIGN CHOICE: log entry 17). -/
def State.rspStatus (s : State) (p : PortIn) : Option (BitVec 3) := (s.rspOffered p).map (fun r => r.status.code)

/-- Output `rsp_data` (R67); none while `rsp_valid` is 0, also at a reset edge (DESIGN CHOICE: log entry 17). -/
def State.rspData (s : State) (p : PortIn) : Option RspData := (s.rspOffered p).map (fun r => r.data)

/-- Reset (R170, R35): every register takes its reset value and no response is offered, so that an unanswered command is
cancelled (R171). Storage is not reset (log entry 4). -/
def State.applyReset (s : State) : State :=
  { s with cfgValid := false, capacity := 0#64, bitWidth := 0#6, wordCount := 0, errSticky := 0#6, rsp := none }

/-- Serve one command word: the command it decodes to, or `raise Error(ILLEGAL)`, before any command's rule runs
(R64, R65, R68, R151). -/
def runCommand (w : CmdWord) (s : State) : Host.Outcome State Fault Refusal :=
  match decode w with
  | .ok i => exec i s
  | .error _ => .next (s.raiseError .illegal)

/-- One edge with the host's levels `p` (R67): reset goes before everything (R153); a command is accepted when `cmd_valid`
and `cmd_ready` are both 1; a response is taken when `rsp_valid` and `rsp_ready` are both 1; else nothing changes
(R165, R176). -/
def onEdge (p : PortIn) (s : State) : Host.Outcome State Fault Refusal :=
  if p.rst then .next s.applyReset
  else if p.cmdValid && s.cmdReady p then runCommand p.cmdWord s
  else if s.rspValid p && p.rspReady then .next { s with rsp := none }
  else .next s

/-- The next edge of the host's script, and no change when the host drives nothing (R165; log entry 6). -/
def nextEdge (s : State) : Host.Outcome State Fault Refusal :=
  match s.inputs with
  | [] => .next s
  | p :: rest => onEdge p { s with inputs := rest }

/-- The levels by which the host offers command word `w`. -/
def offer (w : CmdWord) : PortIn := { rst := false, cmdValid := true, cmdWord := w, rspReady := false }

/-- The state in which the host offers `w` at the next edge and PABD is ready for it: no response waits (R67). -/
def State.offerNext (s : State) (w : CmdWord) : State :=
  { s with rsp := none, inputs := offer w :: s.inputs }

end Sys2Proof.Machine
end

