-- ==== Sys2Proof/WellFormed.lean ====
section
/-! DEFINITION. The checks on configurations and on assembly lines. An `Instr` needs none: its operands are bit vectors of
exactly their fields' widths (spec/30_encoding.md R61, R62), so every `Instr` is well formed and has an encoding. -/

namespace Sys2Proof

/-- The constraint on `MAX_WORDS` (spec/00_scope.md R10): the size in bytes of the whole storage fits the 64-bit response
data field. The constraint on `WORD_BITS` (R7) holds of every `Config`. -/
abbrev Config.legal (c : Config) : Prop := c.maxWords * c.wordBytes < 2 ^ 64

/-- An assembler refuses an operand that does not fit its field: a count or index at or above `2^64`, a maximum or value at
or above `2^32` (R72). -/
def AsmLine.wellFormed : AsmLine → Bool
  | .create count maxval => decide (count < 2 ^ 64) && decide (maxval < 2 ^ 32)
  | .set index value => decide (index < 2 ^ 64) && decide (value < 2 ^ 32)
  | .get index => decide (index < 2 ^ 64)
  | .destroy => true
  | .size => true

end Sys2Proof
end

