-- ==== Sys2Proof/Machine/Assembler.lean ====
section
/-! DEFINITION. The assembler of spec/30_encoding.md R72: text to line, line to command word, response to text. It is no
part of the machine; it gives the notation of the spec's programs its meaning. Blanks, letter case and the base of a
response's data: log entry 13. -/

namespace Sys2Proof

/-- The command a line stands for, or none where an operand does not fit its field (R72). -/
def AsmLine.toInstr (l : AsmLine) : Option Instr :=
  if l.wellFormed then
    match l with
    | .create count maxval => some (.create (BitVec.ofNat 64 count) (BitVec.ofNat 32 maxval))
    | .set index value => some (.set (BitVec.ofNat 64 index) (BitVec.ofNat 32 value))
    | .get index => some (.get (BitVec.ofNat 64 index))
    | .destroy => some .destroy
    | .size => some .size
  else none

/-- The command word of a line (R72). -/
def AsmLine.assemble (l : AsmLine) : Option CmdWord := l.toInstr.map encode

end Sys2Proof

namespace Sys2Proof.Machine

/-- The value of a digit in base 10 or 16. -/
def digitValue (base : Nat) (c : Char) : Option Nat :=
  let n := c.toNat
  let d := if 48 ≤ n ∧ n ≤ 57 then n - 48
    else if 65 ≤ n ∧ n ≤ 70 then n - 55
    else if 97 ≤ n ∧ n ≤ 102 then n - 87
    else base
  if d < base then some d else none

/-- The number whose digits follow those already read into `acc`. -/
def parseDigits (base : Nat) : Nat → List Char → Option Nat
  | acc, [] => some acc
  | acc, c :: cs =>
    match digitValue base c with
    | none => none
    | some d => parseDigits base (acc * base + d) cs

/-- An operand, decimal or `0x` hexadecimal, at least one digit (R72). -/
def parseNumber : List Char → Option Nat
  | '0' :: 'x' :: c :: cs => parseDigits 16 0 (c :: cs)
  | c :: cs => parseDigits 10 0 (c :: cs)
  | [] => none

/-- A line's tokens: blanks separate, a comma is a token of its own. `tok` is the token being read, last character
first. -/
def tokensFrom : List Char → List Char → List (List Char)
  | tok, [] => if tok.isEmpty then [] else [tok.reverse]
  | tok, c :: cs =>
    let done := if tok.isEmpty then [] else [tok.reverse]
    if c = ' ' then done ++ tokensFrom [] cs
    else if c = ',' then done ++ [[',']] ++ tokensFrom [] cs
    else tokensFrom (c :: tok) cs

/-- One line of the assembly language (R72). -/
def parseLine (line : String) : Option AsmLine :=
  match tokensFrom [] line.toList with
  | [m] => if m = "DESTROY".toList then some .destroy else if m = "SIZE".toList then some .size else none
  | [m, x] => if m = "GET".toList then (parseNumber x).map AsmLine.get else none
  | [m, x, [','], y] =>
    match parseNumber x, parseNumber y with
    | some a, some b =>
      if m = "CREATE".toList then some (.create a b) else if m = "SET".toList then some (.set a b) else none
    | _, _ => none
  | _ => none

/-- The command word of a line of text (R72). -/
def assembleText (line : String) : Option CmdWord := (parseLine line).bind AsmLine.assemble

/-- The name of a status (R150). -/
def Status.name : Status → String
  | .ok => "OK"
  | .outOfRange => "OUT_OF_RANGE"
  | .allocFail => "ALLOC_FAIL"
  | .noArray => "NO_ARRAY"
  | .inUse => "IN_USE"
  | .illegal => "ILLEGAL"

/-- A response as it is written: `-> <STATUS>, <data>` (R72). The data is written in decimal, as in R72's one example; the
spec fixes no base and spec/95_test_vectors.md writes hexadecimal too (DESIGN CHOICE: log entry 13). -/
def Response.render (r : Response) : String := "-> " ++ r.status.name ++ ", " ++ toString r.data.toNat

end Sys2Proof.Machine
end

