-- ==== Sys2Proof/Safety.lean ====
section
/-! DEFINITION. The terms of the statements: the state's invariant (spec/10_state.md R29, R30), which storage a command can
observe (R34), which status a command word answers (spec/60_exceptions.md R152), and a run without errors (R158). -/

namespace Sys2Proof.Machine

/-- The invariant of the state: what R29 and R30 say of the configuration registers and the padding bits, the widths of
the registers (R24 to R26), the legality of the parameters (spec/00_scope.md R10), and the canonical form of storage. -/
structure State.Inv (s : State) : Prop where
  /-- `MAX_WORDS * (WORD_BITS / 8) < 2^64` (R10). -/
  legal : s.cfg.legal
  /-- Storage is in its canonical form. -/
  canonical : s.storage.wf
  /-- Storage has `MAX_WORDS` words (R27). -/
  bounded : ∀ c ∈ s.storage, c.1 < s.cfg.maxWords * s.cfg.wordBytes
  /-- Bit 0 of `ERR_STICKY` is hardwired to 0 (R26). -/
  stickyZero : s.errSticky.getLsbD 0 = false
  /-- With no array present the configuration registers are 0 (R30). -/
  absent : s.cfgValid = false → s.capacity = 0#64 ∧ s.bitWidth = 0#6 ∧ s.wordCount = 0
  /-- R29 item 1. -/
  width : s.cfgValid = true → 1 ≤ s.bitWidth.toNat ∧ s.bitWidth.toNat ≤ 32
  /-- R29 item 2. -/
  count : s.cfgValid = true →
    s.wordCount = ceilDiv (s.capacity.toNat * s.bitWidth.toNat) s.cfg.wordBits ∧ s.wordCount ≤ s.cfg.maxWords
  /-- R29 item 4. -/
  padding : s.cfgValid = true → ∀ b, s.capacity.toNat * s.bitWidth.toNat ≤ b → b < s.wordCount * s.cfg.wordBits →
    s.bitAt b = false
  /-- A response that reports an error carries data 0 (R66, R151). -/
  errorData : ∀ r, s.rsp = some r → r.status ≠ .ok → r.data = 0#64

/-- Two states that differ at most in storage words that are not live, which no command can observe (R27, R34). -/
structure State.SameLive (s t : State) : Prop where
  cfg : s.cfg = t.cfg
  cfgValid : s.cfgValid = t.cfgValid
  capacity : s.capacity = t.capacity
  bitWidth : s.bitWidth = t.bitWidth
  wordCount : s.wordCount = t.wordCount
  errSticky : s.errSticky = t.errSticky
  rsp : s.rsp = t.rsp
  inputs : s.inputs = t.inputs
  /-- Every bit of a live word agrees. -/
  live : ∀ b, b < s.wordCount * s.cfg.wordBits → s.bitAt b = t.bitAt b

/-- Whether the cause of a status holds for command word `w`, whatever other causes hold too (spec/60_exceptions.md
R150, R151). -/
def State.hasCause (s : State) (w : CmdWord) : Status → Bool
  | .ok => true
  | .illegal =>
    match decode w with
    | .error _ => true
    | .ok _ => false
  | .inUse =>
    match decode w with
    | .ok (.create _ _) => s.cfgValid
    | _ => false
  | .noArray =>
    match decode w with
    | .ok (.set _ _) | .ok (.get _) | .ok .size => !s.cfgValid
    | _ => false
  | .allocFail =>
    match decode w with
    | .ok (.create a b) => decide (s.cfg.maxWords < wordcount s.cfg.wordBits a.toNat (bitwidth b))
    | _ => false
  | .outOfRange =>
    match decode w with
    | .ok (.set a _) | .ok (.get a) => decide (s.capacity ≤ a)
    | _ => false

/-- The order in which causes are reported (R152): the decode, the presence of an array, the word count, the index. -/
def statusOrder : List Status := [.illegal, .inUse, .noArray, .allocFail, .outOfRange, .ok]

/-- The one status reported for `w`: the first in the order whose cause holds (R152). -/
def State.firstStatus (s : State) (w : CmdWord) : Status :=
  (statusOrder.find? (s.hasCause w)).getD .ok

/-- No error is remembered (R158): the premise 'ERR_STICKY = 0 at its end' of a claim about a host's run. -/
def State.clean (s : State) : Prop := s.errStickyPort = 0#6

end Sys2Proof.Machine
end

