-- ==== Sys2Proof/Certificates/Slice0/Obligations.lean ====
section
/-! DEFINITION. The statements for the provers. Each docstring names the rules of spec/ it formalises; where a clause rests
on a choice of the model, it names the log entry. -/

open Sys2Proof Sys2Proof.Machine

/-- Every command is decoded from its own encoding. Derived: 30_encoding.md R61, 30_encoding.md R63, 30_encoding.md R68.
-/
def Obligations.EncodedCommandsDecodeBack : Prop :=
  ∀ i : Instr, decode (encode i) = .ok i

/-- The decoder gives the verdict of the opcode table's match and mask on every word. Stated: R68. -/
def Obligations.DecodingFollowsTheOpcodeTable : Prop :=
  ∀ w : CmdWord,
    let m := w &&& 0xFFFFFFFF#128
    (m = 1#128 → decode w = .ok (.create (w.extractLsb' 64 64) (w.extractLsb' 32 32))) ∧
    (m = 2#128 → decode w = .ok (.set (w.extractLsb' 64 64) (w.extractLsb' 32 32))) ∧
    (m = 3#128 → decode w = .ok (.get (w.extractLsb' 64 64))) ∧
    (m = 4#128 → decode w = .ok .destroy) ∧
    (m = 5#128 → decode w = .ok .size) ∧
    (m ∉ [1#128, 2#128, 3#128, 4#128, 5#128] → ∃ e, decode w = .error e)

/-- A command word is A, B, RSVD and OP, each in its own bits. Stated: R61. -/
def Obligations.CommandWordLayout : Prop :=
  (∀ (a : Index) (b : Value) (r : BitVec 28) (o : BitVec 4),
    (cmdWordOf a b r o).toNat = a.toNat * 2 ^ 64 + b.toNat * 2 ^ 32 + r.toNat * 2 ^ 4 + o.toNat) ∧
  (∀ w : CmdWord, cmdWordOf (cmdA w) (cmdB w) (cmdRsvd w) (cmdOp w) = w)

/-- The spec's six encoding examples. Stated: R71. -/
def Obligations.EncodingExamples : Prop :=
  encode (.create 8#64 511#32) = 0x0000000000000008000001FF00000001#128 ∧
  encode (.set 7#64 0x1FF#32) = 0x0000000000000007000001FF00000002#128 ∧
  encode (.get 7#64) = 0x00000000000000070000000000000003#128 ∧
  encode .destroy = 0x00000000000000000000000000000004#128 ∧
  encode .size = 0x00000000000000000000000000000005#128 ∧
  decode 0x0000000000000008000001FF00000001#128 = .ok (.create 8#64 511#32) ∧
  decode 0x0000000000000007000001FF00000002#128 = .ok (.set 7#64 0x1FF#32) ∧
  decode 0x00000000000000070000000000000003#128 = .ok (.get 7#64) ∧
  decode 0x00000000000000000000000000000004#128 = .ok .destroy ∧
  decode 0x00000000000000000000000000000005#128 = .ok .size ∧
  decode 0x00000000000000000000000000000013#128 = .error .reservedBits

/-- A field a command does not use has the same effect as 0. Stated: R69. -/
def Obligations.IgnoredOperandsHaveNoEffect : Prop :=
  ∀ (w : CmdWord) (s : State),
    let m := w &&& 0xFFFFFFFF#128
    (m = 3#128 → runCommand w s = runCommand (w &&& 0xFFFFFFFFFFFFFFFF00000000FFFFFFFF#128) s) ∧
    (m = 4#128 → runCommand w s = runCommand 4#128 s) ∧
    (m = 5#128 → runCommand w s = runCommand 5#128 s)

/-- The assembler encodes exactly the operands that fit their fields. Derived: 30_encoding.md R72 (operand ranges and
encodings), 30_encoding.md R61. -/
def Obligations.AssemblerRefusesWhatDoesNotFit : Prop :=
  (∀ n m : Nat, (AsmLine.create n m).assemble.map BitVec.toNat =
    if n < 2 ^ 64 ∧ m < 2 ^ 32 then some (n * 2 ^ 64 + m * 2 ^ 32 + 1) else none) ∧
  (∀ n m : Nat, (AsmLine.set n m).assemble.map BitVec.toNat =
    if n < 2 ^ 64 ∧ m < 2 ^ 32 then some (n * 2 ^ 64 + m * 2 ^ 32 + 2) else none) ∧
  (∀ n : Nat, (AsmLine.get n).assemble.map BitVec.toNat =
    if n < 2 ^ 64 then some (n * 2 ^ 64 + 3) else none) ∧
  AsmLine.destroy.assemble = some 4#128 ∧
  AsmLine.size.assemble = some 5#128

/-- A step that accepts a word which decodes to a command is that command (edges, withFetchWord: log entry 6; whole
effect in the accepting step: log entry 8). Derived: 30_encoding.md R60, 30_encoding.md R67, 30_encoding.md R68. -/
def Obligations.StepRunsTheOfferedCommand : Prop :=
  (∀ (s : State) (p : PortIn) (rest : List PortIn) (i : Instr),
    s.inputs = p :: rest → p.rst = false → p.cmdValid = true → s.rsp = none → decode p.cmdWord = .ok i →
    step s = exec i { s with inputs := rest }) ∧
  (∀ (s : State) (nbits w : Nat) (i : Instr), decodeTableWord nbits w = some i →
    step (s.withFetchWord nbits w) = exec i { s with rsp := none })

/-- A word with RSVD not 0, or with a reserved opcode, answers ILLEGAL and sets bit 5, nothing else. Stated: R64, R65.
-/
def Obligations.IllegalWordRaisesIllegal : Prop :=
  ∀ (w : CmdWord) (s : State),
    w.extractLsb' 4 28 ≠ 0#28 ∨ (w.extractLsb' 0 4).toNat = 0 ∨ 6 ≤ (w.extractLsb' 0 4).toNat →
    runCommand w s =
      .next { s with errSticky := s.errSticky ||| 0b100000#6, rsp := some { status := .illegal, data := 0#64 } }

/-- Acceptance and taking at the ports (edges as in log entries 6 to 8). Derived: 30_encoding.md R67,
70_reset_and_hazards.md R176, 93_implementation_defined.md I18. -/
def Obligations.EdgeHandshake : Prop :=
  ∀ (s : State) (p : PortIn) (rest : List PortIn), s.inputs = p :: rest →
    (p.rst = true → s.cmdReady p = false ∧ s.rspValid p = false) ∧
    (p.rst = false → s.rsp = none →
      s.cmdReady p = true ∧ s.rspValid p = false ∧
      (p.cmdValid = true → step s = runCommand p.cmdWord { s with inputs := rest }) ∧
      (p.cmdValid = false → step s = .next { s with inputs := rest })) ∧
    (∀ r, p.rst = false → s.rsp = some r →
      s.cmdReady p = false ∧ s.rspValid p = true ∧
      s.rspStatus p = some r.status.code ∧ s.rspData p = some r.data ∧
      (p.rspReady = true → step s = .next { s with inputs := rest, rsp := none }) ∧
      (p.rspReady = false → step s = .next { s with inputs := rest })) ∧
    (s.errSticky.getLsbD 0 = false → s.errStickyPort = s.errSticky)

/-- A reset leaves the reset state whatever was under way, and cancels an unanswered command. Stated: R171. -/
def Obligations.ResetGivesTheResetState : Prop :=
  ∀ (s : State) (p : PortIn) (rest : List PortIn), s.inputs = p :: rest → p.rst = true →
    ∃ m : Mem, step s = .next { State.resetWith s.cfg with storage := m, inputs := rest }

/-- The reset value of every register. Stated: R35. -/
def Obligations.ResetValues : Prop :=
  (∀ c : Config, (State.resetWith c).cfg = c ∧ (State.resetWith c).cfgValid = false ∧
    (State.resetWith c).capacity.toNat = 0 ∧ (State.resetWith c).bitWidth.toNat = 0 ∧
    (State.resetWith c).wordCount = 0 ∧ (State.resetWith c).errSticky.toNat = 0) ∧
  ∃ n : Nat, State.reset = State.resetWith { widthExp := 1, maxWords := n } ∧ State.reset.cfg.wordBits = 64

/-- Nothing changes between commands. Derived: 60_exceptions.md R165, 70_reset_and_hazards.md R176. -/
def Obligations.IdleKeepsTheState : Prop :=
  (∀ s : State, s.inputs = [] → step s = .next s) ∧
  (∀ (s : State) (p : PortIn) (rest : List PortIn), s.inputs = p :: rest →
    p.rst = false → p.cmdValid = false → p.rspReady = false → step s = .next { s with inputs := rest })

/-- WORD_BITS and MAX_WORDS never change. Stated: R11. -/
def Obligations.StepKeepsTheParameters : Prop :=
  ∀ s t : State, step s = .next t → t.cfg = s.cfg

/-- The reset state of every legal instance meets the invariant, and so does State.reset, whose MAX_WORDS is the model's
choice (log entry 1). Derived: 10_state.md R29, 10_state.md R30, 10_state.md R35. -/
def Obligations.ResetMeetsTheInvariant : Prop :=
  (∀ c : Config, c.legal → (State.resetWith c).Inv) ∧ State.reset.Inv

/-- Every step keeps the invariant. Derived: 10_state.md R29, 10_state.md R30, 20_memory.md R43. -/
def Obligations.StepKeepsTheInvariant : Prop :=
  ∀ s t : State, s.Inv → step s = .next t → t.Inv

/-- No stuck state: every step and every command word completes. Stated: R181. -/
def Obligations.EveryStepCompletes : Prop :=
  ∀ s : State, s.Inv →
    (∃ t, step s = .next t) ∧ ∀ w : CmdWord, ∃ t, runCommand w s = .next t ∧ t.rsp.isSome = true

/-- The one fault, and the only case that raises it: a SET or GET of an in-range element whose words are not live (log
entry 5). Derived: 00_scope.md R14, 41_write.md R101. -/
def Obligations.StopsOnlyAtWordsNotLive : Prop :=
  (∀ (s : State) (a : Index) (b : Value), s.cfgValid = true → a < s.capacity →
    (let d := decodeAddr s.cfg.wordBits a.toNat s.bitWidth.toNat
     s.wordCount ≤ d.wordIndex ∨ (d.split = true ∧ s.wordCount ≤ d.wordIndex + 1)) →
    exec (.set a b) s = .fault .wordNotLive ∧ exec (.get a) s = .fault .wordNotLive) ∧
  (∀ (i : Instr) (s : State) (f : Fault), exec i s = .fault f →
    f = .wordNotLive ∧ s.cfgValid = true ∧
    ∃ a : Index, (i = .get a ∨ ∃ b, i = .set a b) ∧ a < s.capacity ∧
      (let d := decodeAddr s.cfg.wordBits a.toNat s.bitWidth.toNat
       s.wordCount ≤ d.wordIndex ∨ (d.split = true ∧ s.wordCount ≤ d.wordIndex + 1))) ∧
  (∀ (i : Instr) (s : State) (r : Refusal), exec i s ≠ .refused r)

/-- WORD_COUNT fits its register's width. Derived: 10_state.md R25. -/
def Obligations.WordCountFitsItsRegister : Prop :=
  ∀ s : State, s.Inv → s.wordCount < 2 ^ s.cfg.wordCountBits

/-- The bit-width calculator in its four forms. Stated: R80. -/
def Obligations.BitwidthIsTheHighestSetBitPlusOne : Prop :=
  (∀ m : Value,
    (1 ≤ bitwidth m ∧ bitwidth m ≤ 32 ∧ m.toNat < 2 ^ bitwidth m) ∧
    (m = 0#32 → bitwidth m = 1) ∧
    (m ≠ 0#32 → 2 ^ (bitwidth m - 1) ≤ m.toNat ∧ bitwidth m = 32 - m.clz.toNat ∧
      bitwidth m = Nat.clog 2 (m.toNat + 1))) ∧
  (∀ k : Nat, k < 32 → bitwidth (BitVec.ofNat 32 (2 ^ k)) = k + 1) ∧
  (∀ k : Nat, 1 ≤ k → k ≤ 32 → bitwidth (BitVec.ofNat 32 (2 ^ k - 1)) = k)

/-- The five boundary widths. Stated: R87. -/
def Obligations.BitwidthBoundaryValues : Prop :=
  bitwidth 0#32 = 1 ∧ bitwidth 1#32 = 1 ∧ bitwidth 2#32 = 2 ∧ bitwidth 255#32 = 8 ∧ bitwidth 256#32 = 9

/-- The word-count calculator rounds the exact product up, without wrap. Stated: R81. -/
def Obligations.WordcountIsTheExactCeiling : Prop :=
  ∀ (c : Config) (n w : Nat), n < 2 ^ 64 → 1 ≤ w → w ≤ 32 →
    n * w ≤ wordcount c.wordBits n w * c.wordBits ∧
    wordcount c.wordBits n w * c.wordBits - n * w < c.wordBits ∧
    wordcount c.wordBits n w = (n * w + c.wordBits - 1) >>> (Nat.log2 c.wordBits) ∧
    wordcount c.wordBits 0 w = 0 ∧
    (1 ≤ n * w → n * w ≤ c.wordBits → wordcount c.wordBits n w = 1)

/-- CREATE: IN_USE, ALLOC_FAIL, or a zero-filled array with its configuration. Stated: R82, R83, R84. -/
def Obligations.CreateEffect : Prop :=
  ∀ (a : Index) (b : Value) (s : State),
    let wc := wordcount s.cfg.wordBits a.toNat (bitwidth b)
    (s.cfgValid = true → exec (.create a b) s =
      .next { s with errSticky := s.errSticky ||| 0b010000#6, rsp := some { status := .inUse, data := 0#64 } }) ∧
    (s.cfgValid = false → s.cfg.maxWords < wc → exec (.create a b) s =
      .next { s with errSticky := s.errSticky ||| 0b000100#6, rsp := some { status := .allocFail, data := 0#64 } }) ∧
    (s.cfgValid = false → wc ≤ s.cfg.maxWords → ∃ t, exec (.create a b) s = .next t ∧
      t.capacity = a ∧ t.bitWidth.toNat = bitwidth b ∧ t.wordCount = wc ∧ t.cfgValid = true ∧
      (∀ k, k < wc → t.storage.readWord s.cfg.wordBits k = BitVec.ofNat s.cfg.wordBits 0) ∧
      (∀ x, wc * s.cfg.wordBytes ≤ x → t.storage.readByte x = s.storage.readByte x) ∧
      t.errSticky = s.errSticky ∧ t.cfg = s.cfg ∧ t.inputs = s.inputs ∧
      t.rsp = some { status := .ok, data := 0#64 })

/-- The one-sweep zero fill is the spec's loop of MemWrites (log entry 10). Derived: 40_construction.md R84. -/
def Obligations.ZeroFillIsTheSpecsLoop : Prop :=
  ∀ (W : Nat) (m : Mem) (wc : Nat), 8 ∣ W → m.wf → m.zeroFill W wc = m.zeroFillLoop W wc

/-- After a successful CREATE every element reads 0. Stated: R86. -/
def Obligations.CreatedElementsReadZero : Prop :=
  ∀ (s : State) (a i : Index) (b : Value), s.cfgValid = false →
    wordcount s.cfg.wordBits a.toNat (bitwidth b) ≤ s.cfg.maxWords → i < a →
    ∃ t u, exec (.create a b) s = .next t ∧ exec (.get i) t = .next u ∧
      u.rsp = some { status := .ok, data := 0#64 }

/-- CREATE of 0 elements succeeds with zero words, and every SET and GET of it is out of range. Stated: R89. -/
def Obligations.EmptyArray : Prop :=
  ∀ (s : State) (b : Value), s.cfgValid = false →
    ∃ t, exec (.create 0#64 b) s = .next t ∧ t.rsp = some { status := .ok, data := 0#64 } ∧
      t.wordCount = 0 ∧ t.capacity = 0#64 ∧
      ∀ (i : Index) (v : Value),
        exec (.set i v) t = .next { t with errSticky := t.errSticky ||| 0b000010#6,
                                           rsp := some { status := .outOfRange, data := 0#64 } } ∧
        exec (.get i) t = .next { t with errSticky := t.errSticky ||| 0b000010#6,
                                         rsp := some { status := .outOfRange, data := 0#64 } }

/-- CREATE 1000000, 200 with 64-bit words: 8-bit elements, 125000 words, 1000000 bytes. Stated: R88. -/
def Obligations.SizingExample : Prop :=
  ∀ s : State, s.cfgValid = false → s.cfg.wordBits = 64 → 125000 ≤ s.cfg.maxWords →
    ∃ t u, exec (.create 1000000#64 200#32) s = .next t ∧ t.bitWidth.toNat = 8 ∧ t.wordCount = 125000 ∧
      exec .size t = .next u ∧ ∃ d : RspData, u.rsp = some { status := .ok, data := d } ∧ d.toNat = 1000000 ∧
        4 * d.toNat = 4 * t.capacity.toNat

/-- The bit-address decoder is a shift, a slice and a comparison. Stated: R100. -/
def Obligations.AddressDecoderShiftForm : Prop :=
  ∀ (c : Config) (i : Index) (w : Nat), 1 ≤ w → w ≤ 32 →
    let d := decodeAddr c.wordBits i.toNat w
    let k := c.widthExp + 5
    c.wordBits = 2 ^ k ∧
    d.startBit = i.toNat * w ∧
    d.wordIndex = (i.toNat * w) >>> k ∧
    d.bitOffset = (i.toNat * w) &&& (2 ^ k - 1) ∧
    (d.split = true ↔ c.wordBits < d.bitOffset + w) ∧
    (d.split = true → d.bitsInFirst = c.wordBits - d.bitOffset ∧ d.bitsInSecond = w - d.bitsInFirst) ∧
    (d.split = false → d.bitsInFirst = w ∧ d.bitsInSecond = 0)

/-- The decoder's properties for an in-range index of a present array. Stated: R101. -/
def Obligations.AddressDecoderProperties : Prop :=
  ∀ (s : State) (i : Index), s.Inv → s.cfgValid = true → i < s.capacity →
    let W := s.cfg.wordBits
    let w := s.bitWidth.toNat
    let d := decodeAddr W i.toNat w
    (d.split = true → 1 ≤ d.bitsInFirst ∧ d.bitsInFirst ≤ w - 1 ∧ 1 ≤ d.bitsInSecond ∧ d.bitsInSecond ≤ w - 1 ∧
      d.bitsInFirst + d.bitsInSecond = w ∧ 2 ≤ w) ∧
    (d.split = true → W - w + 1 ≤ d.bitOffset) ∧
    (d.wordIndex < s.wordCount ∧ (d.split = true → d.wordIndex + 1 < s.wordCount)) ∧
    (w ∣ W → d.split = false) ∧
    (d.split = true ↔ W - w < (i.toNat * w) % W) ∧
    (i.toNat * w + w - 1) / W ≤ d.wordIndex + 1

/-- With 64-bit words and 9-bit elements: the split indices below 64, and the round trip at them. Stated: R128. -/
def Obligations.SplitIndicesOfWidthNine : Prop :=
  (∀ i : Nat, i < 64 → ((decodeAddr 64 i 9).split = true ↔ i ∈ [7, 14, 21, 28, 35, 42, 49, 56])) ∧
  (∀ (s : State) (i : Index) (v : Value), s.Inv → s.cfgValid = true → s.cfg.wordBits = 64 →
    s.bitWidth.toNat = 9 → 64 ≤ s.capacity.toNat → i.toNat ∈ [7, 14, 21, 28, 35, 42, 49, 56] → v.toNat < 512 →
    ∃ t u, exec (.set i v) s = .next t ∧ exec (.get i) t = .next u ∧
      u.rsp = some { status := .ok, data := v.setWidth 64 })

/-- The single-word masked write, bit by bit. Stated: R102. -/
def Obligations.SingleWordWriteBits : Prop :=
  ∀ (W : Nat) (old v : StorageWord W) (off w j : Nat), off + w ≤ W → v.toNat < 2 ^ w → j < W →
    (writeSingle old off w v).getLsbD j =
      if off ≤ j ∧ j < off + w then v.getLsbD (j - off) else old.getLsbD j

/-- The split-word masked write, bit by bit, in both words. Stated: R103. -/
def Obligations.SplitWordWriteBits : Prop :=
  ∀ (W : Nat) (old0 old1 v : StorageWord W) (off w j : Nat), off < W → W < off + w → w ≤ W → v.toNat < 2 ^ w → j < W →
    (writeSplitFirst old0 off (W - off) v).getLsbD j =
      (if off ≤ j then v.getLsbD (j - off) else old0.getLsbD j) ∧
    (writeSplitSecond old1 (W - off) (w - (W - off)) v).getLsbD j =
      (if j < w - (W - off) then v.getLsbD (W - off + j) else old1.getLsbD j)

/-- The single-word and the split-word masked read, bit by bit. Stated: R120, R121. -/
def Obligations.MaskedReadBits : Prop :=
  (∀ (W : Nat) (x : StorageWord W) (off w j : Nat), off + w ≤ W →
    (readSingle x off w).getLsbD j = (decide (j < w) && x.getLsbD (off + j))) ∧
  (∀ (W : Nat) (x0 x1 : StorageWord W) (off w j : Nat), off < W → W < off + w → w ≤ W →
    (readSplit x0 x1 off (W - off) (w - (W - off))).getLsbD j =
      if j < W - off then x0.getLsbD (off + j) else (decide (j < w) && x1.getLsbD (j - (W - off))))

/-- GET of an in-range element answers its bit-stream value and changes nothing. Stated: R122, R124 (the in-range case;
its errors: GetErrors), R44 (the value of an element, and that GET returns it). -/
def Obligations.GetReturnsTheElement : Prop :=
  ∀ (s : State) (a : Index), s.Inv → s.cfgValid = true → a < s.capacity →
    exec (.get a) s = .next { s with rsp := some { status := .ok, data := BitVec.ofNat 64 (s.elem a.toNat) } } ∧
    s.elem a.toNat < 2 ^ s.bitWidth.toNat ∧ s.elem a.toNat < 2 ^ 32

/-- SET of an in-range element makes it the masked value and changes no other bit of storage. Stated: R104, R106 (the
in-range case; its errors: SetErrors). -/
def Obligations.SetWritesTheElementAlone : Prop :=
  ∀ (s : State) (a : Index) (b : Value), s.Inv → s.cfgValid = true → a < s.capacity →
    ∃ t, exec (.set a b) s = .next t ∧
      t.elem a.toNat = b.toNat % 2 ^ s.bitWidth.toNat ∧
      (∀ x, ¬ (a.toNat * s.bitWidth.toNat ≤ x ∧ x < a.toNat * s.bitWidth.toNat + s.bitWidth.toNat) →
        t.bitAt x = s.bitAt x) ∧
      (∀ x, (let d := decodeAddr s.cfg.wordBits a.toNat s.bitWidth.toNat
             x / s.cfg.wordBytes ≠ d.wordIndex ∧ ¬ (d.split = true ∧ x / s.cfg.wordBytes = d.wordIndex + 1)) →
        t.storage.readByte x = s.storage.readByte x) ∧
      t = { s with storage := t.storage, rsp := some { status := .ok, data := 0#64 } }

/-- Bit t of the value is stored at bit address start_bit + t. Stated: R41. -/
def Obligations.SetStoresBitsInStreamOrder : Prop :=
  ∀ (s : State) (a : Index) (b : Value), s.Inv → s.cfgValid = true → a < s.capacity →
    ∃ t, exec (.set a b) s = .next t ∧
      ∀ x, x < s.bitWidth.toNat → t.bitAt (a.toNat * s.bitWidth.toNat + x) = b.getLsbD x

/-- SET then GET returns the value modulo 2^BIT_WIDTH, and exactly the value where it fits. Stated: R108, R126. -/
def Obligations.SetThenGetReturnsTheMaskedValue : Prop :=
  ∀ (s : State) (i : Index) (v : Value), s.Inv → s.cfgValid = true → i < s.capacity →
    ∃ t u, exec (.set i v) s = .next t ∧ exec (.get i) t = .next u ∧
      u.rsp = some { status := .ok, data := BitVec.ofNat 64 (v.toNat % 2 ^ s.bitWidth.toNat) } ∧
      (v.toNat < 2 ^ s.bitWidth.toNat → u.rsp = some { status := .ok, data := v.setWidth 64 })

/-- SET of one element does not change the answer of GET of another. Stated: R127. -/
def Obligations.SetKeepsOtherElements : Prop :=
  ∀ (s : State) (i j : Index) (v : Value), s.Inv → s.cfgValid = true → i < s.capacity → j < s.capacity → i ≠ j →
    ∃ t u u' r, exec (.set j v) s = .next t ∧ exec (.get i) t = .next u ∧ exec (.get i) s = .next u' ∧
      u.rsp = some r ∧ u'.rsp = some r ∧ r.status = .ok

/-- SET of the same value at the same index twice leaves the same state as once. Derived: 20_memory.md R49. -/
def Obligations.SetIsIdempotent : Prop :=
  ∀ (s : State) (a : Index) (b : Value), s.Inv → s.cfgValid = true → a < s.capacity →
    ∃ t, exec (.set a b) s = .next t ∧ exec (.set a b) t = .next t

/-- GET and SIZE change no storage and no configuration register, and repeat their response. Derived: 20_memory.md R49.
-/
def Obligations.GetAndSizeOnlyRead : Prop :=
  ∀ (i : Instr) (s t : State), i = .size ∨ (∃ a, i = .get a) → exec i s = .next t →
    t = { s with errSticky := t.errSticky, rsp := t.rsp } ∧ ∃ u, exec i t = .next u ∧ u.rsp = t.rsp

/-- SET out of range: no storage change, OUT_OF_RANGE, bit 1; SET with no array: NO_ARRAY, bit 3. Stated: R105, R109,
R106 (its two errors), R151 (the errors of SET). -/
def Obligations.SetErrors : Prop :=
  ∀ (a : Index) (b : Value) (s : State),
    (s.cfgValid = false → exec (.set a b) s =
      .next { s with errSticky := s.errSticky ||| 0b001000#6, rsp := some { status := .noArray, data := 0#64 } }) ∧
    (s.cfgValid = true → s.capacity ≤ a → exec (.set a b) s =
      .next { s with errSticky := s.errSticky ||| 0b000010#6, rsp := some { status := .outOfRange, data := 0#64 } })

/-- GET out of range answers OUT_OF_RANGE, 0; GET with no array answers NO_ARRAY, 0. Stated: R123, R129, R124 (its two
errors), R151 (the errors of GET). -/
def Obligations.GetErrors : Prop :=
  ∀ (a : Index) (s : State),
    (s.cfgValid = false → exec (.get a) s =
      .next { s with errSticky := s.errSticky ||| 0b001000#6, rsp := some { status := .noArray, data := 0#64 } }) ∧
    (s.cfgValid = true → s.capacity ≤ a → exec (.get a) s =
      .next { s with errSticky := s.errSticky ||| 0b000010#6, rsp := some { status := .outOfRange, data := 0#64 } })

/-- DESTROY clears the configuration registers, or nothing when no array is present, and answers OK. Stated: R140. -/
def Obligations.DestroyEffect : Prop :=
  ∀ s : State,
    (s.cfgValid = false → exec .destroy s = .next { s with rsp := some { status := .ok, data := 0#64 } }) ∧
    (s.cfgValid = true → exec .destroy s =
      .next { s with cfgValid := false, capacity := 0#64, bitWidth := 0#6, wordCount := 0,
                     rsp := some { status := .ok, data := 0#64 } })

/-- After DESTROY, SET, GET and SIZE answer NO_ARRAY, and a new CREATE starts from zeros. Derived:
43_teardown_accessor.md R141, 40_construction.md R85. -/
def Obligations.DestroyedArrayIsNotReusable : Prop :=
  ∀ s : State, ∃ t, exec .destroy s = .next t ∧ t.cfg = s.cfg ∧
    (∀ (a : Index) (b : Value), ∃ u, exec (.set a b) t = .next u ∧ u.rsp = some { status := .noArray, data := 0#64 }) ∧
    (∀ a : Index, ∃ u, exec (.get a) t = .next u ∧ u.rsp = some { status := .noArray, data := 0#64 }) ∧
    (∃ u, exec .size t = .next u ∧ u.rsp = some { status := .noArray, data := 0#64 }) ∧
    (∃ u, exec .destroy t = .next u ∧ u.rsp = some { status := .ok, data := 0#64 }) ∧
    (∀ (a : Index) (b : Value), wordcount s.cfg.wordBits a.toNat (bitwidth b) ≤ s.cfg.maxWords →
      ∃ u, exec (.create a b) t = .next u ∧ u.rsp = some { status := .ok, data := 0#64 } ∧
        ∀ i : Index, i < a → ∃ v, exec (.get i) u = .next v ∧ v.rsp = some { status := .ok, data := 0#64 })

/-- SIZE answers WORD_COUNT * (WORD_BITS div 8), or NO_ARRAY. Stated: R142. -/
def Obligations.SizeEffect : Prop :=
  (∀ s : State, s.cfgValid = false → exec .size s =
    .next { s with errSticky := s.errSticky ||| 0b001000#6, rsp := some { status := .noArray, data := 0#64 } }) ∧
  (∀ s : State, s.cfgValid = true → s.wordCount * (s.cfg.wordBits / 8) < 2 ^ 64 →
    ∃ d : RspData, exec .size s = .next { s with rsp := some { status := .ok, data := d } } ∧
      d.toNat = s.wordCount * (s.cfg.wordBits / 8)) ∧
  (∀ s : State, s.Inv → s.wordCount * (s.cfg.wordBits / 8) < 2 ^ 64)

/-- An error status makes no state change but its sticky bit, and answers (code, 0). Derived: 00_scope.md R15,
60_exceptions.md R151, 60_exceptions.md R154. -/
def Obligations.ErrorsChangeOnlyTheStickyBit : Prop :=
  ∀ (w : CmdWord) (s t : State) (r : Response), runCommand w s = .next t → t.rsp = some r → r.status ≠ .ok →
    t = { s with errSticky := s.errSticky ||| (1#6 <<< r.status.code.toNat),
                 rsp := some { status := r.status, data := 0#64 } }

/-- Exactly one status is reported, the first that applies, and only its sticky bit is set. Stated: R152. -/
def Obligations.FirstApplicableStatusIsReported : Prop :=
  ∀ (w : CmdWord) (s : State), s.Inv →
    ∃ t r, runCommand w s = .next t ∧ t.rsp = some r ∧ r.status = s.firstStatus w ∧
      t.errSticky = s.errSticky ||| (s.firstStatus w).stickyBit

/-- ERR_STICKY: bit 0 reads 0, an error sets its bit, no command and no step without reset clears a bit, reset clears
all. Stated: R26. -/
def Obligations.StickyBitsStayUntilReset : Prop :=
  (∀ s : State, s.errStickyPort.getLsbD 0 = false) ∧
  (∀ (w : CmdWord) (s t : State) (r : Response), runCommand w s = .next t → t.rsp = some r →
    (r.status ≠ .ok → t.errStickyPort.getLsbD r.status.code.toNat = true) ∧
    (∀ j, s.errStickyPort.getLsbD j = true → t.errStickyPort.getLsbD j = true) ∧
    (∀ j, s.errStickyPort.getLsbD j = false → t.errStickyPort.getLsbD j = true →
      r.status ≠ .ok ∧ j = r.status.code.toNat)) ∧
  (∀ s : State, s.applyReset.errStickyPort = 0#6) ∧
  (∀ s t : State, (∀ p, s.inputs.head? = some p → p.rst = false) → step s = .next t →
    (∀ j, s.errStickyPort.getLsbD j = true → t.errStickyPort.getLsbD j = true) ∧
    ((∀ p, s.inputs.head? = some p → p.cmdValid = false ∨ s.rsp.isSome = true) → t.errSticky = s.errSticky)) ∧
  (∀ (s : State) (p : PortIn) (rest : List PortIn), s.inputs = p :: rest → p.rst = true →
    ∃ t, step s = .next t ∧ t.errStickyPort = 0#6)

/-- What ERR_STICKY remembers changes neither when a later command is accepted nor what it does. Stated: R155. -/
def Obligations.ErrorsNeverBlockLaterCommands : Prop :=
  (∀ (w : CmdWord) (s t : State) (e : BitVec 6), runCommand w s = .next t →
    ∃ t', runCommand w { s with errSticky := e } = .next t' ∧ { t' with errSticky := t.errSticky } = t) ∧
  (∀ (s : State) (p : PortIn) (e : BitVec 6),
    ({ s with errSticky := e } : State).cmdReady p = s.cmdReady p ∧
    ({ s with errSticky := e } : State).rspValid p = s.rspValid p ∧
    (p.rst = false → s.rsp = none → ({ s with errSticky := e } : State).cmdReady p = true)) ∧
  (∀ (s t : State) (e : BitVec 6), step s = .next t →
    ∃ t', step { s with errSticky := e } = .next t' ∧ { t' with errSticky := t.errSticky } = t)

/-- If ERR_STICKY is 0 after a step without reset, it was 0 before, and the command answered OK. Derived:
60_exceptions.md R158, 10_state.md R26. -/
def Obligations.CleanStickyMeansNoErrorHappened : Prop :=
  ∀ (s t : State) (p : PortIn) (rest : List PortIn), s.inputs = p :: rest → p.rst = false → step s = .next t →
    t.clean →
    s.clean ∧ (p.cmdValid = true → s.rsp = none → ∃ r, t.rsp = some r ∧ r.status = .ok)

/-- CAPACITY, BIT_WIDTH and WORD_COUNT do not change while the array lives. Stated: R31. -/
def Obligations.ConfigurationIsImmutable : Prop :=
  (∀ (w : CmdWord) (s t : State), s.cfgValid = true → decode w ≠ .ok .destroy → runCommand w s = .next t →
    t.cfgValid = true ∧ t.capacity = s.capacity ∧ t.bitWidth = s.bitWidth ∧ t.wordCount = s.wordCount) ∧
  (∀ (s t : State) (p : PortIn) (rest : List PortIn), s.inputs = p :: rest → p.rst = false →
    p.cmdValid = false ∨ s.rsp.isSome = true → step s = .next t →
    t.cfgValid = s.cfgValid ∧ t.capacity = s.capacity ∧ t.bitWidth = s.bitWidth ∧ t.wordCount = s.wordCount)

/-- Only GET and SIZE with status OK answer data other than 0. Derived: 30_encoding.md R66, 42_read.md R125. -/
def Obligations.OnlyGetAndSizeAnswerNonzeroData : Prop :=
  ∀ (w : CmdWord) (s t : State) (r : Response), runCommand w s = .next t → t.rsp = some r →
    r.status.code.toNat ≤ 5 ∧
    (r.data ≠ 0#64 → r.status = .ok ∧
      ((∃ a, decode w = .ok (.get a) ∧ r.data.toNat < 2 ^ s.bitWidth.toNat) ∨ decode w = .ok .size))

/-- Element spans lie in the live words, are disjoint, and cover the array without gaps. Stated: R42. -/
def Obligations.SpansTileTheArray : Prop :=
  ∀ s : State, s.Inv → s.cfgValid = true →
    (∀ i b : Nat, i < s.capacity.toNat → i * s.bitWidth.toNat ≤ b → b < i * s.bitWidth.toNat + s.bitWidth.toNat →
      b < s.wordCount * s.cfg.wordBits) ∧
    (∀ b : Nat, b < s.capacity.toNat * s.bitWidth.toNat →
      ∃! i : Nat, i < s.capacity.toNat ∧ i * s.bitWidth.toNat ≤ b ∧
        b < i * s.bitWidth.toNat + s.bitWidth.toNat)

/-- Padding bits lie in the last live word, number fewer than WORD_BITS, and stay 0. Stated: R43. -/
def Obligations.PaddingBitsStayZero : Prop :=
  (∀ s : State, s.Inv → s.cfgValid = true →
    s.wordCount * s.cfg.wordBits - s.capacity.toNat * s.bitWidth.toNat < s.cfg.wordBits ∧
    ∀ b, s.capacity.toNat * s.bitWidth.toNat ≤ b → b < s.wordCount * s.cfg.wordBits →
      b / s.cfg.wordBits + 1 = s.wordCount ∧ s.bitAt b = false) ∧
  (∀ (w : CmdWord) (s t : State), s.Inv → runCommand w s = .next t → t.cfgValid = true →
    ∀ b, t.capacity.toNat * t.bitWidth.toNat ≤ b → b < t.wordCount * t.cfg.wordBits → t.bitAt b = false)

/-- What storage holds outside the live words is never observable. Derived: 10_state.md R27, 10_state.md R34,
10_state.md R35. -/
def Obligations.DeadStorageIsUnobservable : Prop :=
  ∀ s t s' : State, s.SameLive t → s.storage.wf → t.storage.wf → step s = .next s' →
    ∃ t', step t = .next t' ∧ s'.SameLive t' ∧ s'.storage.wf ∧ t'.storage.wf

/-- Byte n of word k holds bits [8n+7 : 8n] of S[k] (word widths other than 64: log entry 14). Derived: 20_memory.md
R46, 20_memory.md R40. -/
def Obligations.LittleEndianByteView : Prop :=
  ∀ (c : Config) (m : Mem) (k n j : Nat), n < c.wordBytes → j < 8 →
    m.readByte (c.wordBytes * k + n) = (m.readWord c.wordBits k).extractLsb' (8 * n) 8 ∧
    bitAt c.wordBits m (8 * (c.wordBytes * k + n) + j) = (m.readByte (c.wordBytes * k + n)).getLsbD j ∧
    (c.wordBits = 64 → c.wordBytes * k + n = 8 * k + n)

/-- MemWrite replaces one storage word, and MemRead returns it. Derived: 00_scope.md R14. -/
def Obligations.MemReadAfterMemWrite : Prop :=
  ∀ (c : Config) (wc : Nat) (m : Mem) (k : Nat) (v : StorageWord c.wordBits), m.wf → k < wc →
    ∃ m', memWrite c.wordBits wc m k v = .ok m' ∧ memRead c.wordBits wc m' k = .ok v ∧
      ∀ k', k' ≠ k → memRead c.wordBits wc m' k' = memRead c.wordBits wc m k'
end

