-- ==== Sys2Proof/Laws/Assembler.lean ====
section
/-! SUPPORT. The command each assembly line stands for, said once per form (spec/30_encoding.md R72). -/

namespace Sys2Proof

@[simp] theorem AsmLine.wellFormed_create (n m : Nat) :
    (AsmLine.create n m).wellFormed = (decide (n < 2 ^ 64) && decide (m < 2 ^ 32)) := rfl
@[simp] theorem AsmLine.wellFormed_set (n m : Nat) :
    (AsmLine.set n m).wellFormed = (decide (n < 2 ^ 64) && decide (m < 2 ^ 32)) := rfl
@[simp] theorem AsmLine.wellFormed_get (n : Nat) : (AsmLine.get n).wellFormed = decide (n < 2 ^ 64) := rfl
@[simp] theorem AsmLine.wellFormed_destroy : AsmLine.destroy.wellFormed = true := rfl
@[simp] theorem AsmLine.wellFormed_size : AsmLine.size.wellFormed = true := rfl

theorem AsmLine.toInstr_create (n m : Nat) : (AsmLine.create n m).toInstr =
    if n < 2 ^ 64 ∧ m < 2 ^ 32 then some (.create (BitVec.ofNat 64 n) (BitVec.ofNat 32 m)) else none := by
  simp only [AsmLine.toInstr, AsmLine.wellFormed_create, Bool.and_eq_true, decide_eq_true_eq]

theorem AsmLine.toInstr_set (n m : Nat) : (AsmLine.set n m).toInstr =
    if n < 2 ^ 64 ∧ m < 2 ^ 32 then some (.set (BitVec.ofNat 64 n) (BitVec.ofNat 32 m)) else none := by
  simp only [AsmLine.toInstr, AsmLine.wellFormed_set, Bool.and_eq_true, decide_eq_true_eq]

theorem AsmLine.toInstr_get (n : Nat) : (AsmLine.get n).toInstr =
    if n < 2 ^ 64 then some (.get (BitVec.ofNat 64 n)) else none := by
  simp only [AsmLine.toInstr, AsmLine.wellFormed_get, decide_eq_true_eq]

end Sys2Proof
end

