-- ==== Sys2Proof/Laws/Memory.lean ====
section
/-! SUPPORT. The laws of storage: every memory operation keeps the canonical form, a byte, word or bit read after a write,
equal contents are equal data, and what MemRead and MemWrite can do. -/

namespace Sys2Proof.Machine

/-! ## Bytes -/

theorem Mem.wf_nil : Mem.wf [] := by simp [Mem.wf]

theorem Mem.wf_cons {x : Nat} {u : Byte} {m : Mem} :
    Mem.wf ((x, u) :: m) ↔ (∀ c ∈ m, x < c.1) ∧ u ≠ 0#8 ∧ Mem.wf m := by
  simp only [Mem.wf, List.pairwise_cons, List.forall_mem_cons]
  tauto

@[simp] theorem Mem.readByte_nil (a : Nat) : Mem.readByte [] a = 0#8 := rfl

/-- An address below every listed one reads as 0. -/
theorem Mem.readByte_eq_zero_of_lt {m : Mem} {a : Nat} (h : ∀ c ∈ m, a < c.1) : m.readByte a = 0#8 := by
  induction m with
  | nil => rfl
  | cons c m ih =>
    have hc := h c (by simp)
    rw [Mem.readByte, if_neg (by omega)]
    exact ih fun d hd => h d (by simp [hd])

/-- An address that is not listed reads as 0. -/
theorem Mem.readByte_eq_zero_of_notMem {m : Mem} {a : Nat} (h : ∀ c ∈ m, c.1 ≠ a) : m.readByte a = 0#8 := by
  induction m with
  | nil => rfl
  | cons c m ih =>
    rw [Mem.readByte, if_neg (h c (by simp))]
    exact ih fun d hd => h d (by simp [hd])

/-- A write lists no address but its own anew. -/
theorem Mem.mem_writeByte {m : Mem} {a : Nat} {v : Byte} {c : Host.Cell} (h : c ∈ m.writeByte a v) :
    c = (a, v) ∨ c ∈ m := by
  induction m with
  | nil => simp only [Mem.writeByte] at h; split at h <;> simp_all
  | cons d m ih =>
    obtain ⟨x, u⟩ := d
    rw [Mem.writeByte] at h
    split at h
    · rcases List.mem_cons.1 h with rfl | h
      · simp
      · rcases ih h with h | h <;> simp [h]
    · dsimp only at h
      split at h <;> split at h <;> simp_all <;> tauto

/-- A byte write keeps the canonical form. -/
theorem Mem.writeByte_wf {m : Mem} (hm : m.wf) (a : Nat) (v : Byte) : (m.writeByte a v).wf := by
  induction m with
  | nil => rw [Mem.writeByte]; split <;> simp_all [Mem.wf]
  | cons d m ih =>
    obtain ⟨x, u⟩ := d
    obtain ⟨hx, hu, hm'⟩ := Mem.wf_cons.1 hm
    rw [Mem.writeByte]
    split
    next hlt =>
      refine Mem.wf_cons.2 ⟨fun c hc => ?_, hu, ih hm'⟩
      rcases Mem.mem_writeByte hc with rfl | hc
      · exact hlt
      · exact hx c hc
    next hge =>
      have above : Mem.wf (if x = a then m else (x, u) :: m) ∧ ∀ c ∈ (if x = a then m else (x, u) :: m), a < c.1 := by
        split
        next h => exact ⟨hm', fun c hc => h ▸ hx c hc⟩
        next h =>
          refine ⟨hm, fun c hc => ?_⟩
          rcases List.mem_cons.1 hc with rfl | hc
          · show a < x; omega
          · have := hx c hc; omega
      dsimp only
      split
      · exact above.1
      next hv => exact Mem.wf_cons.2 ⟨above.2, hv, above.1⟩

/-- The byte read after a byte write. -/
theorem Mem.readByte_writeByte {m : Mem} (hm : m.wf) (a : Nat) (v : Byte) (b : Nat) :
    (m.writeByte a v).readByte b = if b = a then v else m.readByte b := by
  induction m with
  | nil => rw [Mem.writeByte]; split <;> simp_all [Mem.readByte, @eq_comm _ b a]
  | cons d m ih =>
    obtain ⟨x, u⟩ := d
    obtain ⟨hx, hu, hm'⟩ := Mem.wf_cons.1 hm
    rw [Mem.writeByte]
    split
    next hlt =>
      simp only [Mem.readByte, ih hm']
      split <;> split <;> first | rfl | omega
    next hge =>
      have tail : Mem.readByte m x = 0#8 := Mem.readByte_eq_zero_of_lt hx
      have low : a < x → Mem.readByte m a = 0#8 := fun h =>
        Mem.readByte_eq_zero_of_lt fun c hc => lt_trans h (hx c hc)
      dsimp only
      by_cases hxa : x = a
      · subst hxa
        by_cases hb : b = x
        · subst hb
          by_cases hv : v = 0#8 <;> simp [hv, Mem.readByte, tail]
        · by_cases hv : v = 0#8 <;> simp [hv, Mem.readByte, hb, Ne.symm hb]
      · by_cases hb : b = a
        · subst hb
          by_cases hv : v = 0#8 <;> simp [hv, hxa, Mem.readByte, low (by omega)]
        · by_cases hv : v = 0#8 <;> simp [hv, hxa, Mem.readByte, hb, Ne.symm hb]

/-- Two memories in canonical form with the same contents are the same data. -/
theorem Mem.eq_of_readByte_eq {m m' : Mem} (hm : m.wf) (hm' : m'.wf)
    (h : ∀ a, m.readByte a = m'.readByte a) : m = m' := by
  induction m generalizing m' with
  | nil =>
    cases m' with
    | nil => rfl
    | cons d m' =>
      obtain ⟨y, u⟩ := d
      exact absurd (by simpa [Mem.readByte] using (h y).symm) (Mem.wf_cons.1 hm').2.1
  | cons d m ih =>
    obtain ⟨x, u⟩ := d
    obtain ⟨hx, hu, hw⟩ := Mem.wf_cons.1 hm
    cases m' with
    | nil => exact absurd (by simpa [Mem.readByte] using h x) hu
    | cons d' m' =>
      obtain ⟨y, v⟩ := d'
      obtain ⟨hy, hv, hw'⟩ := Mem.wf_cons.1 hm'
      have hxy : x = y := by
        rcases lt_trichotomy x y with hlt | heq | hlt
        · have := h x
          rw [Mem.readByte, if_pos rfl, Mem.readByte, if_neg (by omega),
            Mem.readByte_eq_zero_of_lt fun c hc => lt_trans hlt (hy c hc)] at this
          exact absurd this hu
        · exact heq
        · have := h y
          rw [Mem.readByte, if_neg (by omega), Mem.readByte_eq_zero_of_lt fun c hc => lt_trans hlt (hx c hc),
            Mem.readByte, if_pos rfl] at this
          exact absurd this.symm hv
      subst hxy
      have huv : u = v := by simpa [Mem.readByte] using h x
      subst huv
      refine congrArg _ (ih hw hw' fun a => ?_)
      by_cases hax : a = x
      · subst hax
        rw [Mem.readByte_eq_zero_of_lt hx, Mem.readByte_eq_zero_of_lt hy]
      · simpa [Mem.readByte, Ne.symm hax] using h a

/-! ## Words -/

theorem Mem.writeBytes_wf {m : Mem} (hm : m.wf) (a n v : Nat) : (m.writeBytes a n v).wf := by
  induction n generalizing m a v with
  | zero => exact hm
  | succ n ih => exact ih (Mem.writeByte_wf hm _ _) _ _

theorem Mem.writeWord_wf {m : Mem} (hm : m.wf) (W k : Nat) (v : StorageWord W) : (m.writeWord W k v).wf :=
  Mem.writeBytes_wf hm _ _ _

/-- The addresses a word write lists lie in the word (R46). -/
theorem Mem.mem_writeBytes {m : Mem} {a n v : Nat} {c : Host.Cell} (h : c ∈ m.writeBytes a n v) :
    (a ≤ c.1 ∧ c.1 < a + n) ∨ c ∈ m := by
  induction n generalizing m a v with
  | zero => exact .inr h
  | succ n ih =>
    rcases ih h with h | h
    · left; omega
    · rcases Mem.mem_writeByte h with rfl | h
      · left; constructor <;> simp
      · exact .inr h

/-- The byte read after the bytes of `v` are stored from `a` on, least significant first (R46). -/
theorem Mem.readByte_writeBytes {m : Mem} (hm : m.wf) (a n v b : Nat) :
    (m.writeBytes a n v).readByte b =
      if a ≤ b ∧ b < a + n then BitVec.ofNat 8 (v / 2 ^ (8 * (b - a))) else m.readByte b := by
  induction n generalizing m a v with
  | zero => rw [Mem.writeBytes, if_neg (by omega)]
  | succ n ih =>
    rw [Mem.writeBytes, ih (Mem.writeByte_wf hm _ _), Mem.readByte_writeByte hm]
    by_cases h1 : a + 1 ≤ b ∧ b < a + 1 + n
    · rw [if_pos h1, if_pos (by omega), Nat.div_div_eq_div_mul, ← Nat.pow_add]
      congr 3; omega
    · rw [if_neg h1]
      by_cases h2 : b = a
      · subst h2; simp
      · rw [if_neg h2, if_neg (by omega)]

/-- The bits of the bytes read from `a` on (R46). -/
theorem Mem.testBit_readBytes (m : Mem) (a n j : Nat) :
    (m.readBytes a n).testBit j = (decide (j < 8 * n) && (m.readByte (a + j / 8)).getLsbD (j % 8)) := by
  induction n generalizing a j with
  | zero => simp [Mem.readBytes]
  | succ n ih =>
    rw [Mem.readBytes, Nat.testBit_two_pow_mul_add _ (m.readByte a).isLt]
    by_cases hj : j < 8
    · rw [if_pos hj, Nat.div_eq_of_lt hj, Nat.mod_eq_of_lt hj]
      simp [BitVec.getLsbD, show j < 8 * (n + 1) by omega]
    · rw [if_neg hj, ih, show a + 1 + (j - 8) / 8 = a + j / 8 by omega, show (j - 8) % 8 = j % 8 by omega]
      congr 1
      simp; omega

/-- A bit of a storage word is a bit of its byte view (R46). -/
theorem Mem.getLsbD_readWord {W : Nat} (hW : 8 ∣ W) (m : Mem) (k j : Nat) (hj : j < W) :
    (m.readWord W k).getLsbD j = (m.readByte (W / 8 * k + j / 8)).getLsbD (j % 8) := by
  have hjW : j < 8 * (W / 8) := by omega
  rw [Mem.readWord, BitVec.getLsbD_ofNat, Mem.testBit_readBytes]
  simp only [hj, hjW, decide_true, Bool.true_and]

/-- The word read after a word write (R14). -/
theorem Mem.readWord_writeWord {W : Nat} (hW : 8 ∣ W) {m : Mem} (hm : m.wf) (k k' : Nat) (v : StorageWord W) :
    (m.writeWord W k v).readWord W k' = if k' = k then v else m.readWord W k' := by
  refine BitVec.eq_of_getLsbD_eq fun j hj => ?_
  rw [Mem.getLsbD_readWord hW _ _ _ hj, Mem.writeWord, Mem.readByte_writeBytes hm]
  have hj8 : j / 8 < W / 8 := by omega
  rcases lt_trichotomy k' k with h | h | h
  · have : W / 8 * (k' + 1) ≤ W / 8 * k := Nat.mul_le_mul_left _ h
    rw [Nat.mul_add] at this
    rw [if_neg (by omega), if_neg (by omega), Mem.getLsbD_readWord hW _ _ _ hj]
  · subst h
    rw [if_pos (by omega), if_pos rfl, Nat.add_sub_cancel_left, BitVec.getLsbD_ofNat]
    have h8 : j % 8 < 8 := Nat.mod_lt _ (by decide)
    simp only [h8, decide_true, Bool.true_and, BitVec.getLsbD, Nat.testBit_div_two_pow]
    congr 1; omega
  · have : W / 8 * (k + 1) ≤ W / 8 * k' := Nat.mul_le_mul_left _ h
    rw [Nat.mul_add] at this
    rw [if_neg (by omega), if_neg (by omega), Mem.getLsbD_readWord hW _ _ _ hj]

/-- A byte outside the word that a word write replaces reads as before. -/
theorem Mem.readByte_writeWord_of_ne {W : Nat} {m : Mem} (hm : m.wf) (k : Nat) (v : StorageWord W)
    (a : Nat) (h : a / (W / 8) ≠ k) : (m.writeWord W k v).readByte a = m.readByte a := by
  rw [Mem.writeWord, Mem.readByte_writeBytes hm, if_neg]
  rintro ⟨h1, h2⟩
  refine h (Nat.div_eq_of_lt_le ?_ ?_)
  · rwa [Nat.mul_comm]
  · rw [Nat.succ_mul, Nat.mul_comm]; exact h2

/-! ## Zero fill -/

theorem Mem.zeroFill_wf {m : Mem} (hm : m.wf) (W wc : Nat) : (m.zeroFill W wc).wf :=
  ⟨hm.1.filter _, fun c hc => hm.2 c (List.mem_filter.1 hc).1⟩

/-- The byte read after the zero fill (R84). -/
theorem Mem.readByte_zeroFill (W : Nat) (m : Mem) (wc a : Nat) :
    (m.zeroFill W wc).readByte a = if a < W / 8 * wc then 0#8 else m.readByte a := by
  induction m with
  | nil => simp [Mem.zeroFill]
  | cons d m ih =>
    obtain ⟨x, u⟩ := d
    rw [Mem.zeroFill, List.filter_cons]
    change Mem.readByte (if _ then _ :: Mem.zeroFill W m wc else Mem.zeroFill W m wc) a = _
    split
    next h =>
      simp only [decide_eq_true_eq] at h
      rw [Mem.readByte, Mem.readByte, ih]
      by_cases hx : x = a
      · rw [if_pos hx, if_pos hx, if_neg (by omega)]
      · rw [if_neg hx, if_neg hx]
    next h =>
      simp only [decide_eq_true_eq] at h
      rw [ih, Mem.readByte]
      by_cases hx : x = a
      · rw [if_pos (by omega), if_pos (by omega)]
      · rw [if_neg hx]

/-! ## MemRead and MemWrite -/

/-- All that MemRead can do (R14). -/
theorem memRead_cases (W wc : Nat) (m : Mem) (k : Nat) :
    (k < wc ∧ memRead W wc m k = .ok (m.readWord W k)) ∨ (wc ≤ k ∧ memRead W wc m k = .error .wordNotLive) := by
  unfold memRead; split
  · exact .inl ⟨‹_›, rfl⟩
  · exact .inr ⟨by omega, rfl⟩

/-- All that MemWrite can do (R14). -/
theorem memWrite_cases (W wc : Nat) (m : Mem) (k : Nat) (v : StorageWord W) :
    (k < wc ∧ memWrite W wc m k v = .ok (m.writeWord W k v)) ∨ (wc ≤ k ∧ memWrite W wc m k v = .error .wordNotLive) := by
  unfold memWrite; split
  · exact .inl ⟨‹_›, rfl⟩
  · exact .inr ⟨by omega, rfl⟩

theorem memRead_of_lt {W wc : Nat} {m : Mem} {k : Nat} (h : k < wc) : memRead W wc m k = .ok (m.readWord W k) := if_pos h

theorem memWrite_of_lt {W wc : Nat} {m : Mem} {k : Nat} {v : StorageWord W} (h : k < wc) :
    memWrite W wc m k v = .ok (m.writeWord W k v) := if_pos h

end Sys2Proof.Machine
end

