-- ==== Sys2Proof/Laws/Operands.lean ====
section
/-! SUPPORT. The laws of the configuration, of masks, of the bit stream and of the four functions: one lemma for each that
says all it can do. -/

namespace Sys2Proof

/-! ## The configuration -/

theorem Config.wordBits_ge (c : Config) : 32 ≤ c.wordBits := by
  have := Nat.one_le_two_pow (n := c.widthExp)
  unfold Config.wordBits; omega

theorem Config.wordBits_pos (c : Config) : 0 < c.wordBits := by have := c.wordBits_ge; omega

theorem Config.eight_dvd_wordBits (c : Config) : 8 ∣ c.wordBits := ⟨4 * 2 ^ c.widthExp, by unfold Config.wordBits; ring⟩

theorem Config.wordBits_eq (c : Config) : c.wordBits = 8 * c.wordBytes :=
  (Nat.mul_div_cancel' c.eight_dvd_wordBits).symm

theorem Config.wordBytes_pos (c : Config) : 0 < c.wordBytes := by
  have := c.wordBits_eq; have := c.wordBits_ge; omega

/-- Word widths are the powers of two from 32 on (spec/00_scope.md R7). -/
theorem Config.wordBits_eq_two_pow (c : Config) : c.wordBits = 2 ^ (c.widthExp + 5) := by
  rw [Config.wordBits, Nat.pow_add]; omega

end Sys2Proof

namespace Sys2Proof.Machine

/-! ## Masks and bit sums -/

/-- The bits of `M(n)` (spec/00_scope.md R13). -/
@[simp] theorem getLsbD_lowMask (W n j : Nat) : (lowMask W n).getLsbD j = (decide (j < W) && decide (j < n)) := by
  rw [lowMask, BitVec.getLsbD_ofNat, Nat.testBit_two_pow_sub_one]

theorem bitSum_lt (f : Nat → Bool) (n : Nat) : bitSum f n < 2 ^ n := by
  induction n with
  | zero => simp [bitSum]
  | succ n ih =>
    have : (f n).toNat ≤ 1 := by cases f n <;> decide
    have := Nat.mul_le_mul_right (2 ^ n) this
    rw [bitSum, pow_succ]; omega

/-- The bits of a bit sum are the summands' (spec/20_memory.md R44). -/
theorem testBit_bitSum (f : Nat → Bool) (n j : Nat) : (bitSum f n).testBit j = (decide (j < n) && f j) := by
  induction n with
  | zero => simp [bitSum]
  | succ n ih =>
    rw [bitSum, Nat.add_comm, Nat.mul_comm, Nat.testBit_two_pow_mul_add _ (bitSum_lt f n), ih]
    rcases lt_trichotomy j n with h | h | h
    · simp [h, show j < n + 1 by omega]
    · subst h; cases f j <;> simp
    · have : ∀ b : Bool, b.toNat.testBit (j - n) = false := by
        intro b
        obtain ⟨k, hk⟩ : ∃ k, j - n = k + 1 := ⟨j - n - 1, by omega⟩
        cases b <;> simp [hk, Nat.testBit_succ]
      simp [show ¬ j < n by omega, show ¬ j < n + 1 by omega, this]

/-! ## The bit stream -/

/-- Bit address `b` is bit `b mod 8` of byte `b div 8`, whatever the word width (spec/20_memory.md R46). -/
theorem bitAt_eq_readByte {W : Nat} (hW : 8 ∣ W) (hpos : 0 < W) (m : Mem) (b : Nat) :
    bitAt W m b = (m.readByte (b / 8)).getLsbD (b % 8) := by
  obtain ⟨B, rfl⟩ := hW
  have hmod : b % (8 * B) < 8 * B := Nat.mod_lt _ hpos
  have hdiv : 8 * B * (b / (8 * B)) + b % (8 * B) = b := Nat.div_add_mod _ _
  rw [bitAt, Mem.getLsbD_readWord ⟨B, rfl⟩ _ _ _ hmod, Nat.mul_div_cancel_left _ (by decide)]
  generalize b / (8 * B) = q at hdiv ⊢
  generalize b % (8 * B) = r at hdiv hmod ⊢
  rw [Nat.mul_assoc] at hdiv
  rw [show B * q + r / 8 = b / 8 by omega, show r % 8 = b % 8 by omega]

/-- Two memories in canonical form with the same bit stream are the same data. -/
theorem Mem.eq_of_bitAt_eq {W : Nat} (hW : 8 ∣ W) (hpos : 0 < W) {m m' : Mem} (hm : m.wf) (hm' : m'.wf)
    (h : ∀ b, bitAt W m b = bitAt W m' b) : m = m' := by
  refine Mem.eq_of_readByte_eq hm hm' fun a => BitVec.eq_of_getLsbD_eq fun j hj => ?_
  have := h (8 * a + j)
  rwa [bitAt_eq_readByte hW hpos, bitAt_eq_readByte hW hpos, show (8 * a + j) / 8 = a by omega,
    show (8 * a + j) % 8 = j by omega] at this

/-- The bit stream after a word write (R40, R14). -/
theorem bitAt_writeWord {W : Nat} (hW : 8 ∣ W) {m : Mem} (hm : m.wf) (k : Nat) (v : StorageWord W) (b : Nat) :
    bitAt W (m.writeWord W k v) b = if b / W = k then v.getLsbD (b % W) else bitAt W m b := by
  rw [bitAt, Mem.readWord_writeWord hW hm]
  split <;> rfl

/-- The bit stream after the zero fill (R84). -/
theorem bitAt_zeroFill {W : Nat} (hW : 8 ∣ W) (hpos : 0 < W) (m : Mem) (wc b : Nat) :
    bitAt W (m.zeroFill W wc) b = if b < wc * W then false else bitAt W m b := by
  rw [bitAt_eq_readByte hW hpos, bitAt_eq_readByte hW hpos, Mem.readByte_zeroFill]
  obtain ⟨B, rfl⟩ := hW
  rw [Nat.mul_div_cancel_left _ (by decide), show wc * (8 * B) = 8 * (B * wc) by ring]
  by_cases h : b / 8 < B * wc
  · rw [if_pos h, if_pos (by omega)]; simp
  · rw [if_neg h, if_neg (by omega)]

/-! ## The four functions -/

/-- What the bit-address decoder answers, its divisions turned into one equation (spec/41_write.md R100). -/
theorem decodeAddr_spec {W : Nat} (hpos : 0 < W) (i w : Nat) :
    (decodeAddr W i w).startBit = i * w ∧
      i * w = (decodeAddr W i w).wordIndex * W + (decodeAddr W i w).bitOffset ∧
      (decodeAddr W i w).bitOffset < W ∧
      ((decodeAddr W i w).split = true ↔ W < (decodeAddr W i w).bitOffset + w) ∧
      (decodeAddr W i w).bitsInFirst = (if (decodeAddr W i w).split then W - (decodeAddr W i w).bitOffset else w) ∧
      (decodeAddr W i w).bitsInSecond = (if (decodeAddr W i w).split then w - (W - (decodeAddr W i w).bitOffset) else 0) := by
  refine ⟨rfl, ?_, Nat.mod_lt _ hpos, by simp [decodeAddr], rfl, ?_⟩
  · show i * w = i * w / W * W + i * w % W
    rw [Nat.mul_comm (i * w / W)]; exact (Nat.div_add_mod _ _).symm
  · simp only [decodeAddr]; split <;> simp_all

/-- The rounding of the word-count calculator (spec/40_construction.md R81). -/
theorem wordcount_bounds {W : Nat} (hpos : 0 < W) (n w : Nat) :
    n * w ≤ wordcount W n w * W ∧ wordcount W n w * W < n * w + W := by
  have h := Nat.div_add_mod (n * w + W - 1) W
  have h' := Nat.mod_lt (n * w + W - 1) hpos
  rw [wordcount, ceilDiv, Nat.mul_comm (_ / W)]
  omega

/-- All that the element reader can do: one word read in the single-word case, two in the split case, and a fault where
one of them is not live (spec/42_read.md R120, R121). -/
theorem readElement_cases (W wc : Nat) (m : Mem) (i w : Nat) :
    ((decodeAddr W i w).wordIndex < wc ∧ (decodeAddr W i w).split = false ∧
      readElement W wc m i w =
        .ok (readSingle (m.readWord W (decodeAddr W i w).wordIndex) (decodeAddr W i w).bitOffset w)) ∨
    ((decodeAddr W i w).wordIndex + 1 < wc ∧ (decodeAddr W i w).split = true ∧
      readElement W wc m i w =
        .ok (readSplit (m.readWord W (decodeAddr W i w).wordIndex) (m.readWord W ((decodeAddr W i w).wordIndex + 1))
          (decodeAddr W i w).bitOffset (decodeAddr W i w).bitsInFirst (decodeAddr W i w).bitsInSecond)) ∨
    ((wc ≤ (decodeAddr W i w).wordIndex ∨ (decodeAddr W i w).split = true ∧ wc ≤ (decodeAddr W i w).wordIndex + 1) ∧
      readElement W wc m i w = .error .wordNotLive) := by
  unfold readElement
  generalize decodeAddr W i w = d
  rcases memRead_cases W wc m d.wordIndex with ⟨h0, e0⟩ | ⟨h0, e0⟩
  · cases hs : d.split
    · exact .inl ⟨h0, rfl, by simp [e0, hs]⟩
    · rcases memRead_cases W wc m (d.wordIndex + 1) with ⟨h1, e1⟩ | ⟨h1, e1⟩
      · exact .inr (.inl ⟨h1, rfl, by simp [e0, e1, hs]⟩)
      · exact .inr (.inr ⟨.inr ⟨rfl, h1⟩, by simp [e0, e1, hs]⟩)
  · exact .inr (.inr ⟨.inl h0, by simp [e0]⟩)

/-- All that the element writer can do: one word written in the single-word case, two in the split case, and a fault where
one of them is not live (spec/41_write.md R102, R103). -/
theorem writeElement_cases (W wc : Nat) (m : Mem) (i w : Nat) (v : StorageWord W) :
    ((decodeAddr W i w).wordIndex < wc ∧ (decodeAddr W i w).split = false ∧
      writeElement W wc m i w v =
        .ok (m.writeWord W (decodeAddr W i w).wordIndex
          (writeSingle (m.readWord W (decodeAddr W i w).wordIndex) (decodeAddr W i w).bitOffset w v))) ∨
    ((decodeAddr W i w).wordIndex + 1 < wc ∧ (decodeAddr W i w).split = true ∧
      writeElement W wc m i w v =
        .ok ((m.writeWord W (decodeAddr W i w).wordIndex
            (writeSplitFirst (m.readWord W (decodeAddr W i w).wordIndex) (decodeAddr W i w).bitOffset
              (decodeAddr W i w).bitsInFirst v)).writeWord W ((decodeAddr W i w).wordIndex + 1)
            (writeSplitSecond (m.readWord W ((decodeAddr W i w).wordIndex + 1)) (decodeAddr W i w).bitsInFirst
              (decodeAddr W i w).bitsInSecond v))) ∨
    ((wc ≤ (decodeAddr W i w).wordIndex ∨ (decodeAddr W i w).split = true ∧ wc ≤ (decodeAddr W i w).wordIndex + 1) ∧
      writeElement W wc m i w v = .error .wordNotLive) := by
  unfold writeElement
  generalize decodeAddr W i w = d
  rcases memRead_cases W wc m d.wordIndex with ⟨h0, e0⟩ | ⟨h0, e0⟩
  · cases hs : d.split
    · exact .inl ⟨h0, rfl, by simp [e0, hs, memWrite_of_lt h0]⟩
    · rcases memRead_cases W wc m (d.wordIndex + 1) with ⟨h1, e1⟩ | ⟨h1, e1⟩
      · exact .inr (.inl ⟨h1, rfl, by simp [e0, e1, hs, memWrite_of_lt h0, memWrite_of_lt h1]⟩)
      · exact .inr (.inr ⟨.inr ⟨rfl, h1⟩, by simp [e0, e1, hs]⟩)
  · exact .inr (.inr ⟨.inl h0, by simp [e0]⟩)

end Sys2Proof.Machine
end

