-- ==== Sys2Proof/Laws/State.lean ====
section
/-! SUPPORT. What each update of the state does to each field, so that no proof unfolds a record update. -/

namespace Sys2Proof.Machine

variable (s : State)

@[simp] theorem State.respond_cfg (status : Status) (data : RspData) : (s.respond status data).cfg = s.cfg := rfl
@[simp] theorem State.respond_cfgValid (status : Status) (data : RspData) : (s.respond status data).cfgValid = s.cfgValid := rfl
@[simp] theorem State.respond_capacity (status : Status) (data : RspData) : (s.respond status data).capacity = s.capacity := rfl
@[simp] theorem State.respond_bitWidth (status : Status) (data : RspData) : (s.respond status data).bitWidth = s.bitWidth := rfl
@[simp] theorem State.respond_wordCount (status : Status) (data : RspData) : (s.respond status data).wordCount = s.wordCount := rfl
@[simp] theorem State.respond_errSticky (status : Status) (data : RspData) : (s.respond status data).errSticky = s.errSticky := rfl
@[simp] theorem State.respond_storage (status : Status) (data : RspData) : (s.respond status data).storage = s.storage := rfl
@[simp] theorem State.respond_rsp (status : Status) (data : RspData) : (s.respond status data).rsp = some { status := status, data := data } := rfl
@[simp] theorem State.respond_inputs (status : Status) (data : RspData) : (s.respond status data).inputs = s.inputs := rfl

@[simp] theorem State.setSticky_cfg (c : Status) : (s.setSticky c).cfg = s.cfg := rfl
@[simp] theorem State.setSticky_cfgValid (c : Status) : (s.setSticky c).cfgValid = s.cfgValid := rfl
@[simp] theorem State.setSticky_capacity (c : Status) : (s.setSticky c).capacity = s.capacity := rfl
@[simp] theorem State.setSticky_bitWidth (c : Status) : (s.setSticky c).bitWidth = s.bitWidth := rfl
@[simp] theorem State.setSticky_wordCount (c : Status) : (s.setSticky c).wordCount = s.wordCount := rfl
@[simp] theorem State.setSticky_errSticky (c : Status) : (s.setSticky c).errSticky = s.errSticky ||| c.stickyBit := rfl
@[simp] theorem State.setSticky_storage (c : Status) : (s.setSticky c).storage = s.storage := rfl
@[simp] theorem State.setSticky_rsp (c : Status) : (s.setSticky c).rsp = s.rsp := rfl
@[simp] theorem State.setSticky_inputs (c : Status) : (s.setSticky c).inputs = s.inputs := rfl

@[simp] theorem State.raiseError_cfg (c : Status) : (s.raiseError c).cfg = s.cfg := rfl
@[simp] theorem State.raiseError_cfgValid (c : Status) : (s.raiseError c).cfgValid = s.cfgValid := rfl
@[simp] theorem State.raiseError_capacity (c : Status) : (s.raiseError c).capacity = s.capacity := rfl
@[simp] theorem State.raiseError_bitWidth (c : Status) : (s.raiseError c).bitWidth = s.bitWidth := rfl
@[simp] theorem State.raiseError_wordCount (c : Status) : (s.raiseError c).wordCount = s.wordCount := rfl
@[simp] theorem State.raiseError_errSticky (c : Status) : (s.raiseError c).errSticky = s.errSticky ||| c.stickyBit := rfl
@[simp] theorem State.raiseError_storage (c : Status) : (s.raiseError c).storage = s.storage := rfl
@[simp] theorem State.raiseError_rsp (c : Status) : (s.raiseError c).rsp = some { status := c, data := 0#64 } := rfl
@[simp] theorem State.raiseError_inputs (c : Status) : (s.raiseError c).inputs = s.inputs := rfl

@[simp] theorem State.applyReset_cfg : (s.applyReset).cfg = s.cfg := rfl
@[simp] theorem State.applyReset_cfgValid : (s.applyReset).cfgValid = false := rfl
@[simp] theorem State.applyReset_capacity : (s.applyReset).capacity = 0#64 := rfl
@[simp] theorem State.applyReset_bitWidth : (s.applyReset).bitWidth = 0#6 := rfl
@[simp] theorem State.applyReset_wordCount : (s.applyReset).wordCount = 0 := rfl
@[simp] theorem State.applyReset_errSticky : (s.applyReset).errSticky = 0#6 := rfl
@[simp] theorem State.applyReset_storage : (s.applyReset).storage = s.storage := rfl
@[simp] theorem State.applyReset_rsp : (s.applyReset).rsp = none := rfl
@[simp] theorem State.applyReset_inputs : (s.applyReset).inputs = s.inputs := rfl

@[simp] theorem State.offerNext_cfg (w : CmdWord) : (s.offerNext w).cfg = s.cfg := rfl
@[simp] theorem State.offerNext_cfgValid (w : CmdWord) : (s.offerNext w).cfgValid = s.cfgValid := rfl
@[simp] theorem State.offerNext_capacity (w : CmdWord) : (s.offerNext w).capacity = s.capacity := rfl
@[simp] theorem State.offerNext_bitWidth (w : CmdWord) : (s.offerNext w).bitWidth = s.bitWidth := rfl
@[simp] theorem State.offerNext_wordCount (w : CmdWord) : (s.offerNext w).wordCount = s.wordCount := rfl
@[simp] theorem State.offerNext_errSticky (w : CmdWord) : (s.offerNext w).errSticky = s.errSticky := rfl
@[simp] theorem State.offerNext_storage (w : CmdWord) : (s.offerNext w).storage = s.storage := rfl
@[simp] theorem State.offerNext_rsp (w : CmdWord) : (s.offerNext w).rsp = none := rfl
@[simp] theorem State.offerNext_inputs (w : CmdWord) : (s.offerNext w).inputs = offer w :: s.inputs := rfl

@[simp] theorem State.resetWith_cfg (c : Config) : (State.resetWith c).cfg = c := rfl
@[simp] theorem State.resetWith_cfgValid (c : Config) : (State.resetWith c).cfgValid = false := rfl
@[simp] theorem State.resetWith_capacity (c : Config) : (State.resetWith c).capacity = 0#64 := rfl
@[simp] theorem State.resetWith_bitWidth (c : Config) : (State.resetWith c).bitWidth = 0#6 := rfl
@[simp] theorem State.resetWith_wordCount (c : Config) : (State.resetWith c).wordCount = 0 := rfl
@[simp] theorem State.resetWith_errSticky (c : Config) : (State.resetWith c).errSticky = 0#6 := rfl
@[simp] theorem State.resetWith_storage (c : Config) : (State.resetWith c).storage = [] := rfl
@[simp] theorem State.resetWith_rsp (c : Config) : (State.resetWith c).rsp = none := rfl
@[simp] theorem State.resetWith_inputs (c : Config) : (State.resetWith c).inputs = [] := rfl

theorem State.reset_eq : State.reset = State.resetWith Config.reference := rfl

/-- `raise Error(code)` as one update of the record (spec/00_scope.md R15). -/
theorem State.raiseError_eq (c : Status) :
    s.raiseError c = { s with errSticky := s.errSticky ||| c.stickyBit, rsp := some { status := c, data := 0#64 } } := rfl

/-- No status sets bit 0 of `ERR_STICKY` (spec/10_state.md R26). -/
@[simp] theorem Status.stickyBit_bit_zero (c : Status) : c.stickyBit[0] = false := by cases c <;> rfl

/-- An error status sets exactly the bit of its code (R26). -/
theorem Status.stickyBit_getLsbD (c : Status) (h : c ≠ .ok) (j : Nat) :
    c.stickyBit.getLsbD j = decide (j = c.code.toNat) := by
  by_cases hj : j < 6
  · interval_cases j <;> cases c <;> first | exact absurd rfl h | decide
  · have : c.code.toNat < 6 := by cases c <;> decide
    rw [BitVec.getLsbD_of_ge _ _ (by omega)]
    simp; omega

/-- The sticky bit of an error status, as one shifted bit (R26). -/
theorem Status.stickyBit_eq (c : Status) (h : c ≠ .ok) : c.stickyBit = 1#6 <<< c.code.toNat := by
  cases c <;> first | exact absurd rfl h | rfl

@[simp] theorem Status.stickyBit_ok : Status.stickyBit .ok = 0#6 := rfl

end Sys2Proof.Machine
end

