-- ==== Sys2Proof/Laws/Meanings.lean ====
section
/-! SUPPORT. For each command, all that its meaning can do, said once: which answer it gives and under which condition on
the state and the operands. Proofs over exec cite these and do not unfold a meaning. -/

namespace Sys2Proof.Machine

/-- All that CREATE can do (spec/40_construction.md R84). -/
theorem execCreate_cases (a : Index) (b : Value) (s : State) :
    (s.cfgValid = true ∧ execCreate a b s = .next (s.raiseError .inUse)) ∨
    (s.cfgValid = false ∧ s.cfg.maxWords < wordcount s.cfg.wordBits a.toNat (bitwidth b) ∧
      execCreate a b s = .next (s.raiseError .allocFail)) ∨
    (s.cfgValid = false ∧ wordcount s.cfg.wordBits a.toNat (bitwidth b) ≤ s.cfg.maxWords ∧
      execCreate a b s = .next (State.respond
        { s with
          storage := Mem.zeroFill s.cfg.wordBits s.storage (wordcount s.cfg.wordBits a.toNat (bitwidth b))
          capacity := a
          bitWidth := BitVec.ofNat 6 (bitwidth b)
          wordCount := wordcount s.cfg.wordBits a.toNat (bitwidth b)
          cfgValid := true } .ok 0#64)) := by
  unfold execCreate
  by_cases hv : s.cfgValid = true
  · exact .inl ⟨hv, if_pos hv⟩
  · rw [if_neg hv]
    rw [Bool.not_eq_true] at hv
    by_cases hw : s.cfg.maxWords < wordcount s.cfg.wordBits a.toNat (bitwidth b)
    · exact .inr (.inl ⟨hv, hw, if_pos hw⟩)
    · exact .inr (.inr ⟨hv, Nat.not_lt.1 hw, if_neg hw⟩)

/-- All that SET can do (spec/41_write.md R106); the fault is one of the element writer (`writeElement_cases`). -/
theorem execSet_cases (a : Index) (b : Value) (s : State) :
    (s.cfgValid = false ∧ execSet a b s = .next (s.raiseError .noArray)) ∨
    (s.cfgValid = true ∧ s.capacity ≤ a ∧ execSet a b s = .next (s.raiseError .outOfRange)) ∨
    (s.cfgValid = true ∧ a < s.capacity ∧
      ((∃ m, writeElement s.cfg.wordBits s.wordCount s.storage a.toNat s.bitWidth.toNat
            (maskedValue s.cfg.wordBits s.bitWidth.toNat b) = .ok m ∧
          execSet a b s = .next (State.respond { s with storage := m } .ok 0#64)) ∨
       (∃ f, writeElement s.cfg.wordBits s.wordCount s.storage a.toNat s.bitWidth.toNat
            (maskedValue s.cfg.wordBits s.bitWidth.toNat b) = .error f ∧ execSet a b s = .fault f))) := by
  unfold execSet
  cases hv : s.cfgValid
  · exact .inl ⟨rfl, rfl⟩
  · by_cases ha : s.capacity ≤ a
    · exact .inr (.inl ⟨rfl, ha, by simp [ha]⟩)
    · refine .inr (.inr ⟨rfl, BitVec.not_le.1 ha, ?_⟩)
      cases e : writeElement s.cfg.wordBits s.wordCount s.storage a.toNat s.bitWidth.toNat
        (maskedValue s.cfg.wordBits s.bitWidth.toNat b) with
      | ok m => exact .inl ⟨m, rfl, by simp [ha, e]⟩
      | error f => exact .inr ⟨f, rfl, by simp [ha, e]⟩

/-- All that GET can do (spec/42_read.md R124); the fault is one of the element reader (`readElement_cases`). -/
theorem execGet_cases (a : Index) (s : State) :
    (s.cfgValid = false ∧ execGet a s = .next (s.raiseError .noArray)) ∨
    (s.cfgValid = true ∧ s.capacity ≤ a ∧ execGet a s = .next (s.raiseError .outOfRange)) ∨
    (s.cfgValid = true ∧ a < s.capacity ∧
      ((∃ v, readElement s.cfg.wordBits s.wordCount s.storage a.toNat s.bitWidth.toNat = .ok v ∧
          execGet a s = .next (s.respond .ok (v.setWidth 64))) ∨
       (∃ f, readElement s.cfg.wordBits s.wordCount s.storage a.toNat s.bitWidth.toNat = .error f ∧
          execGet a s = .fault f))) := by
  unfold execGet
  cases hv : s.cfgValid
  · exact .inl ⟨rfl, rfl⟩
  · by_cases ha : s.capacity ≤ a
    · exact .inr (.inl ⟨rfl, ha, by simp [ha]⟩)
    · refine .inr (.inr ⟨rfl, BitVec.not_le.1 ha, ?_⟩)
      cases e : readElement s.cfg.wordBits s.wordCount s.storage a.toNat s.bitWidth.toNat with
      | ok v => exact .inl ⟨v, rfl, by simp [ha]⟩
      | error f => exact .inr ⟨f, rfl, by simp [ha]⟩

/-- All that DESTROY can do (spec/43_teardown_accessor.md R140). -/
theorem execDestroy_cases (s : State) :
    (s.cfgValid = false ∧ execDestroy s = .next (s.respond .ok 0#64)) ∨
    (s.cfgValid = true ∧ execDestroy s = .next (State.respond
      { s with cfgValid := false, capacity := 0#64, bitWidth := 0#6, wordCount := 0 } .ok 0#64)) := by
  unfold execDestroy
  cases hv : s.cfgValid
  · exact .inl ⟨rfl, rfl⟩
  · exact .inr ⟨rfl, rfl⟩

/-- All that SIZE can do (R142). -/
theorem execSize_cases (s : State) :
    (s.cfgValid = false ∧ execSize s = .next (s.raiseError .noArray)) ∨
    (s.cfgValid = true ∧
      execSize s = .next (s.respond .ok (BitVec.ofNat 64 (s.wordCount * s.cfg.wordBytes)))) := by
  unfold execSize
  cases hv : s.cfgValid
  · exact .inl ⟨rfl, rfl⟩
  · exact .inr ⟨rfl, rfl⟩

/-- The bits of the masked value operand (spec/41_write.md R106, R107). -/
@[simp] theorem getLsbD_maskedValue {W : Nat} (hW : 32 ≤ W) (w : Nat) (b : Value) (j : Nat) :
    (maskedValue W w b).getLsbD j = (decide (j < w) && b.getLsbD j) := by
  simp only [maskedValue, BitVec.getLsbD_and, BitVec.getLsbD_setWidth, getLsbD_lowMask]
  by_cases h : j < W
  · simp [h, Bool.and_comm]
  · simp [h, BitVec.getLsbD_of_ge b j (by omega)]

/-- The masked value operand is the value modulo `2^w` (R107). -/
theorem toNat_maskedValue {W : Nat} (hW : 32 ≤ W) (w : Nat) (b : Value) :
    (maskedValue W w b).toNat = b.toNat % 2 ^ w := by
  refine Nat.eq_of_testBit_eq fun j => ?_
  rw [Nat.testBit_mod_two_pow]
  exact getLsbD_maskedValue hW w b j

end Sys2Proof.Machine
end

