-- ==== Sys2Proof/Laws/PerInstr.lean ====
section
/-! SUPPORT. A statement about every command as syntax, one lemma per constructor: the word an assembler writes has
`RSVD = 0` and the command's opcode (spec/30_encoding.md R63, R72). -/

namespace Sys2Proof.Laws.EncodeFields

/-- The encoding of a command holds its opcode, and 0 in the reserved bits. -/
def Statement (i : Instr) : Prop := cmdOp (encode i) = i.opcode ∧ cmdRsvd (encode i) = 0#28

/-- The low fields of an assembled word. -/
theorem fields (a : Index) (b : Value) (op : BitVec 4) :
    cmdOp (cmdWordOf a b 0#28 op) = op ∧ cmdRsvd (cmdWordOf a b 0#28 op) = 0#28 := by
  constructor
  · refine BitVec.eq_of_getLsbD_eq fun j hj => ?_
    simp only [cmdOp, cmdWordOf, BitVec.getLsbD_extractLsb', BitVec.getLsbD_append, Nat.zero_add]
    rw [if_pos hj]; simp [hj]
  · refine BitVec.eq_of_getLsbD_eq fun j hj => ?_
    simp only [cmdRsvd, cmdWordOf, BitVec.getLsbD_extractLsb', BitVec.getLsbD_append]
    rw [if_neg (by omega), if_pos (by omega)]; simp

theorem create (a : Index) (b : Value) : Statement (.create a b) := fields a b _

theorem set (a : Index) (b : Value) : Statement (.set a b) := fields a b _

theorem get (a : Index) : Statement (.get a) := fields a _ _

theorem destroy : Statement .destroy := fields _ _ _

theorem size : Statement .size := fields _ _ _

end Sys2Proof.Laws.EncodeFields
end

