-- ==== Sys2Proof/Laws/Step.lean ====
section
/-! SUPPORT. What an edge of the ports can do, said once, and the small facts about the outcomes that every proof over exec
uses. -/

namespace Sys2Proof.Machine

theorem step_nil {s : State} (h : s.inputs = []) : step s = .next s := by simp [step, nextEdge, h]

theorem step_cons {s : State} {p : PortIn} {rest : List PortIn} (h : s.inputs = p :: rest) :
    step s = onEdge p { s with inputs := rest } := by simp [step, nextEdge, h]

/-- What the response ports show: nothing at a reset edge, and else the response that waits (R67; log entry 17). -/
theorem State.rspOffered_eq (s : State) (p : PortIn) : s.rspOffered p = if p.rst then none else s.rsp := by
  unfold State.rspOffered State.rspValid
  cases p.rst <;> cases h : s.rsp <;> simp

/-- All that an edge can do: a reset, the acceptance of a command, the taking of a response, or nothing (spec/30_encoding.md
R67). -/
theorem onEdge_cases (p : PortIn) (s : State) :
    (p.rst = true ∧ onEdge p s = .next s.applyReset) ∨
    (p.rst = false ∧ p.cmdValid = true ∧ s.rsp = none ∧ onEdge p s = runCommand p.cmdWord s) ∨
    (p.rst = false ∧ p.rspReady = true ∧ s.rsp.isSome ∧ onEdge p s = .next { s with rsp := none }) ∨
    (p.rst = false ∧ ¬(p.cmdValid = true ∧ s.rsp = none) ∧ ¬(p.rspReady = true ∧ s.rsp.isSome) ∧
      onEdge p s = .next s) := by
  unfold onEdge State.cmdReady State.rspValid
  cases p.rst <;> cases p.cmdValid <;> cases p.rspReady <;> cases h : s.rsp <;> simp_all

/-- All that a command word can do: the effect of the command it decodes to, or `raise Error(ILLEGAL)` (R64, R65, R68). -/
theorem runCommand_cases (w : CmdWord) (s : State) :
    (∃ i, decode w = .ok i ∧ runCommand w s = exec i s) ∨
    (∃ e, decode w = .error e ∧ runCommand w s = .next (s.raiseError .illegal)) := by
  unfold runCommand
  cases h : decode w with
  | ok i => exact .inl ⟨i, rfl, rfl⟩
  | error e => exact .inr ⟨e, rfl, rfl⟩

/-- All that the decoder can answer (R68). -/
theorem decode_cases (w : CmdWord) :
    (cmdRsvd w ≠ 0#28 ∧ decode w = .error .reservedBits) ∨
    (cmdRsvd w = 0#28 ∧
      ((cmdOp w = 1#4 ∧ decode w = .ok (.create (cmdA w) (cmdB w))) ∨
       (cmdOp w = 2#4 ∧ decode w = .ok (.set (cmdA w) (cmdB w))) ∨
       (cmdOp w = 3#4 ∧ decode w = .ok (.get (cmdA w))) ∨
       (cmdOp w = 4#4 ∧ decode w = .ok .destroy) ∨
       (cmdOp w = 5#4 ∧ decode w = .ok .size) ∨
       (cmdOp w ∉ [1#4, 2#4, 3#4, 4#4, 5#4] ∧ decode w = .error .reservedOpcode))) := by
  unfold decode
  by_cases h : cmdRsvd w = 0#28
  · right
    refine ⟨h, ?_⟩
    rw [if_neg (not_not_intro h)]
    by_cases h1 : cmdOp w = 1#4
    · simp [h1]
    by_cases h2 : cmdOp w = 2#4
    · simp [h2]
    by_cases h3 : cmdOp w = 3#4
    · simp [h3]
    by_cases h4 : cmdOp w = 4#4
    · simp [h4]
    by_cases h5 : cmdOp w = 5#4
    · simp [h5]
    simp [h1, h2, h3, h4, h5]
  · left
    exact ⟨h, if_pos h⟩

end Sys2Proof.Machine
end

