-- ==== Sys2Proof/Tests/Slice0.lean ====
section
/-! SUPPORT. Tests. Expected values are the spec's own vectors (spec/95_test_vectors.md, named at each test) or words written
out by hand from spec/30_encoding.md R61 and R63. After them, for each obligation with hypotheses, a concrete case that
meets them. -/

namespace Sys2Proof.Tests

open Sys2Proof Sys2Proof.Machine

/-! ## Well-formedness: each check refuses an ill-formed term -/

theorem test_create_count_too_large : (AsmLine.create (2 ^ 64) 1).wellFormed = false := by decide
theorem test_create_maximum_too_large : (AsmLine.create 1 (2 ^ 32)).wellFormed = false := by decide
theorem test_set_index_too_large : (AsmLine.set (2 ^ 64) 1).wellFormed = false := by decide
theorem test_set_value_too_large : (AsmLine.set 1 (2 ^ 32)).wellFormed = false := by decide
theorem test_get_index_too_large : (AsmLine.get (2 ^ 64)).wellFormed = false := by decide
theorem test_largest_operands_fit : (AsmLine.create (2 ^ 64 - 1) (2 ^ 32 - 1)).wellFormed = true ∧
    (AsmLine.set (2 ^ 64 - 1) (2 ^ 32 - 1)).wellFormed = true ∧ (AsmLine.get (2 ^ 64 - 1)).wellFormed = true ∧
    AsmLine.destroy.wellFormed = true ∧ AsmLine.size.wellFormed = true := by decide
theorem test_max_words_too_large : ¬ ({ widthExp := 1, maxWords := 2 ^ 61 } : Config).legal := by decide
theorem test_max_words_largest : ({ widthExp := 1, maxWords := 2 ^ 61 - 1 } : Config).legal := by decide
theorem test_memory_out_of_order : ¬ Mem.wf [(1, 5#8), (0, 5#8)] := by decide
theorem test_memory_twice_the_same_address : ¬ Mem.wf [(1, 5#8), (1, 6#8)] := by decide
theorem test_memory_lists_a_zero : ¬ Mem.wf [(1, 0#8)] := by decide
theorem test_reset_memory_canonical : State.reset.storage.wf := by decide

/-! ## Decoding: one word per command, written A, B, RSVD and OP from R61 and R63, each field with its own digits -/

theorem test_decode_create :
    decode 0x0123456789ABCDEF_FEDCBA98_00000001#128 = .ok (.create 0x0123456789ABCDEF#64 0xFEDCBA98#32) := by decide
theorem test_decode_set :
    decode 0x0123456789ABCDEF_FEDCBA98_00000002#128 = .ok (.set 0x0123456789ABCDEF#64 0xFEDCBA98#32) := by decide
theorem test_decode_get : decode 0x0123456789ABCDEF_FEDCBA98_00000003#128 = .ok (.get 0x0123456789ABCDEF#64) := by decide
theorem test_decode_destroy : decode 0x0123456789ABCDEF_FEDCBA98_00000004#128 = .ok .destroy := by decide
theorem test_decode_size : decode 0xFFFFFFFFFFFFFFFF_FFFFFFFF_00000005#128 = .ok .size := by decide
/-- V-E1, V-E3, V-E8, and the first opcode above the table's last. -/
theorem test_decode_reserved_opcodes : decode 0#128 = .error .reservedOpcode ∧
    decode 0x6#128 = .error .reservedOpcode ∧ decode 0x7#128 = .error .reservedOpcode ∧
    decode 0xF#128 = .error .reservedOpcode := by decide
/-- V-E2, V-E4, and the highest reserved bit. -/
theorem test_decode_reserved_bits : decode 0x13#128 = .error .reservedBits ∧
    decode 0x0000000000000005_00000000_00000012#128 = .error .reservedBits ∧
    decode 0x80000001#128 = .error .reservedBits := by decide
/-- The opcode table's match of each row, read with as many bits as the table gives. -/
theorem test_table_words : decodeTableWord 128 1 = some (.create 0#64 0#32) ∧ decodeTableWord 128 2 = some (.set 0#64 0#32) ∧
    decodeTableWord 128 3 = some (.get 0#64) ∧ decodeTableWord 128 4 = some .destroy ∧
    decodeTableWord 128 5 = some .size ∧ decodeTableWord 128 6 = none := by decide
/-- R71's words. -/
theorem test_encode : encode (.create 8#64 511#32) = 0x0000000000000008_000001FF_00000001#128 ∧
    encode (.set 7#64 0x1FF#32) = 0x0000000000000007_000001FF_00000002#128 ∧
    encode (.get 7#64) = 0x0000000000000007_00000000_00000003#128 ∧ encode .destroy = 4#128 ∧
    encode .size = 5#128 := by decide

/-! ## The assembler's text (R72; the words are those of R71 and of program P3) -/

theorem test_assemble_create : assembleText "CREATE 8, 511" = some 0x0000000000000008_000001FF_00000001#128 := by decide
theorem test_assemble_set : assembleText "SET 63, 0xDEADBEEF" = some 0x000000000000003F_DEADBEEF_00000002#128 := by decide
theorem test_assemble_get : assembleText "GET 7" = some 0x0000000000000007_00000000_00000003#128 := by decide
theorem test_assemble_destroy_size : assembleText "DESTROY" = some 4#128 ∧ assembleText "SIZE" = some 5#128 := by decide
theorem test_assemble_refuses : assembleText "SET 1, 0x100000000" = none ∧ assembleText "SET 1" = none ∧
    assembleText "GET 1, 2" = none ∧ assembleText "PUT 1" = none := by decide
/-- R72's example. -/
theorem test_render : Response.render { status := .ok, data := 511#64 } = "-> OK, 511" := by decide

/-! ## The four functions -/

/-- V-B. -/
theorem test_bitwidth : [0#32, 1#32, 2#32, 3#32, 4#32, 200#32, 511#32, 512#32, 0x7FFFFFFF#32, 0x80000000#32,
    0xFFFFFFFF#32].map bitwidth = [1, 1, 2, 2, 3, 8, 9, 10, 31, 32, 32] := by decide
/-- V-W. -/
theorem test_wordcount : [(0, 5), (1, 1), (64, 1), (65, 1), (7, 9), (8, 9), (64, 9), (3, 32)].map
      (fun x => wordcount 64 x.1 x.2) = [0, 1, 1, 2, 1, 2, 9, 2] ∧
    wordcount 64 (2 ^ 64 - 1) 1 = 2 ^ 58 ∧ wordcount 64 (2 ^ 64 - 1) 32 = 2 ^ 63 := by decide
/-- V-D table 1. -/
theorem test_decode_addr_single : decodeAddr 64 6 9 = ⟨54, 0, 54, false, 9, 0⟩ ∧ decodeAddr 64 8 9 = ⟨72, 1, 8, false, 9, 0⟩ ∧
    decodeAddr 64 63 1 = ⟨63, 0, 63, false, 1, 0⟩ ∧ decodeAddr 64 1 32 = ⟨32, 0, 32, false, 32, 0⟩ := by decide
/-- V-D table 1. -/
theorem test_decode_addr_split : decodeAddr 64 7 9 = ⟨63, 0, 63, true, 1, 8⟩ ∧ decodeAddr 64 14 9 = ⟨126, 1, 62, true, 2, 7⟩ ∧
    decodeAddr 64 4 31 = ⟨124, 1, 60, true, 4, 27⟩ ∧ decodeAddr 64 3 17 = ⟨51, 0, 51, true, 13, 4⟩ := by decide
/-- V-S2 and V-S5. -/
theorem test_write_single : writeSingle 0xFFFFFFFFFFFFFFFF#64 56 8 0xAB#64 = 0xABFFFFFFFFFFFFFF#64 ∧
    writeSingle 0xFFFFFFFFFFFFFFFF#64 63 1 0#64 = 0x7FFFFFFFFFFFFFFF#64 := by decide
/-- V-S11 and V-S16. -/
theorem test_write_split : writeSplitFirst 0xFFFFFFFFFFFFFFFF#64 51 13 0#64 = 0x0007FFFFFFFFFFFF#64 ∧
    writeSplitSecond 0xFFFFFFFFFFFFFFFF#64 13 4 0#64 = 0xFFFFFFFFFFFFFFF0#64 ∧
    writeSplitFirst 0#64 62 2 0x12345678#64 = 0#64 ∧ writeSplitSecond 0#64 2 29 0x12345678#64 = 0x048D159E#64 := by decide
/-- V-G: elements of S[0] = 0123456789ABCDEF, S[1] = FEDCBA9876543210. -/
theorem test_read_single : readSingle 0x0123456789ABCDEF#64 12 12 = 0xABC#64 ∧
    readSingle 0x0123456789ABCDEF#64 32 32 = 0x01234567#64 := by decide
/-- V-G. -/
theorem test_read_split : readSplit 0x0123456789ABCDEF#64 0xFEDCBA9876543210#64 60 4 8 = 0x100#64 ∧
    readSplit 0x0123456789ABCDEF#64 0xFEDCBA9876543210#64 62 2 29 = 0x5950C840#64 := by decide

/-! ## One command each -/

/-- The state after an outcome, if there is one. -/
def after (o : Host.Outcome State Fault Refusal) : Option State :=
  match o with
  | .next s => some s
  | .fault _ => none
  | .refused _ => none

/-- An instance of 64-bit words with `maxWords` words, right after reset. -/
def blank (maxWords : Nat) : State := State.resetWith { widthExp := 1, maxWords := maxWords }

/-- The same instance with an array of `n` elements of `w` bits in `wc` words, its storage as given. -/
def arr (maxWords n w wc : Nat) (m : Mem) : State :=
  { blank maxWords with
    cfgValid := true, capacity := BitVec.ofNat 64 n, bitWidth := BitVec.ofNat 6 w, wordCount := wc, storage := m }

/-- A response. -/
def rspOf (status : Status) (data : RspData) : Option Response := some { status := status, data := data }

/-- `CREATE 8, 511` done, in an instance that has no word to spare. -/
def nine : State := arr 2 8 9 2 []

/-- `CREATE 64, 511` done, likewise. -/
def nine64 : State := arr 9 64 9 9 []

/-- V-C1, and the zero fill of what an earlier array left. -/
theorem test_create : after (execCreate 8#64 511#32 { blank 2 with storage := [(0, 7#8), (15, 7#8)] }) =
    some { nine with rsp := rspOf .ok 0#64 } := by decide
/-- V-C4. -/
theorem test_create_alloc_fail : after (execCreate 100#64 0xFFFFFFFF#32 (blank 40)) =
    some { blank 40 with errSticky := 0x04#6, rsp := rspOf .allocFail 0#64 } := by decide
/-- V-S7: bytes 7 and 8 of the byte view. -/
theorem test_set_split : after (execSet 7#64 0x155#32 nine) =
    some { nine with storage := [(7, 0x80#8), (8, 0xAA#8)], rsp := rspOf .ok 0#64 } := by decide
/-- P4: `SET 2, 3` stores 1. -/
theorem test_set_truncates : after (execSet 2#64 3#32 (arr 1 5 1 1 [(0, 8#8)])) =
    some { arr 1 5 1 1 [(0, 0xC#8)] with rsp := rspOf .ok 0#64 } := by decide
/-- V-G1. -/
theorem test_get_split : after (execGet 7#64 { nine with storage := [(7, 0x80#8), (8, 0xAA#8)] }) =
    some { nine with storage := [(7, 0x80#8), (8, 0xAA#8)], rsp := rspOf .ok 0x155#64 } := by decide
/-- V-G3. -/
theorem test_get_out_of_range : after (execGet 8#64 nine) =
    some { nine with errSticky := 0x02#6, rsp := rspOf .outOfRange 0#64 } := by decide
/-- V-X2; the storage and `ERR_STICKY` stay. -/
theorem test_destroy : after (execDestroy { nine with storage := [(7, 0x80#8)], errSticky := 2#6 }) =
    some { blank 2 with storage := [(7, 0x80#8)], errSticky := 2#6, rsp := rspOf .ok 0#64 } := by decide
/-- V-X1. -/
theorem test_destroy_nothing : after (execDestroy (blank 2)) = some { blank 2 with rsp := rspOf .ok 0#64 } := by decide
/-- V-X3. -/
theorem test_size : after (execSize nine) = some { nine with rsp := rspOf .ok 16#64 } := by decide
/-- V-X7: 32-bit words. -/
theorem test_size_narrow_words : after (execSize { arr 2 4 9 2 [] with cfg := { widthExp := 0, maxWords := 2 } }) =
    some { arr 2 4 9 2 [] with cfg := { widthExp := 0, maxWords := 2 }, rsp := rspOf .ok 8#64 } := by decide
/-- V-E4: ILLEGAL, not NO_ARRAY. -/
theorem test_illegal : after (runCommand 0x0000000000000005_00000000_00000012#128 (blank 2)) =
    some { blank 2 with errSticky := 0x20#6, rsp := rspOf .illegal 0#64 } := by decide
/-- V-E5: NO_ARRAY, not OUT_OF_RANGE. -/
theorem test_no_array_first : after (runCommand 0x0000000000000005_00000001_00000002#128 (blank 2)) =
    some { blank 2 with errSticky := 0x08#6, rsp := rspOf .noArray 0#64 } := by decide
/-- V-C6. -/
theorem test_in_use : after (execCreate 1#64 1#32 nine) =
    some { nine with errSticky := 0x10#6, rsp := rspOf .inUse 0#64 } := by decide

/-! ## Edges of the ports -/

/-- The reset level at one edge, with a command offered beside it that must not be accepted. -/
def resetEdge : PortIn := { rst := true, cmdValid := true, cmdWord := 5#128, rspReady := true }

/-- An edge at which the host takes the response. -/
def takeEdge : PortIn := { rst := false, cmdValid := true, cmdWord := 5#128, rspReady := true }

/-- An edge at which the host does nothing. -/
def idleEdge : PortIn := { rst := false, cmdValid := false, cmdWord := 5#128, rspReady := false }

/-- V-R2, and V-R1's sticky bits: the response is dropped with everything else. -/
theorem test_reset_edge : after (step { nine with errSticky := 0x3E#6, rsp := rspOf .ok 0#64, inputs := [resetEdge] }) =
    some (blank 2) := by decide
/-- The response ports: shown while offered (R67), nothing at a reset edge (log entry 17). -/
theorem test_response_ports : ({ nine with rsp := rspOf .inUse 3#64 } : State).rspStatus idleEdge = some 4#3 ∧
    ({ nine with rsp := rspOf .inUse 3#64 } : State).rspData idleEdge = some 3#64 ∧
    ({ nine with rsp := rspOf .inUse 3#64 } : State).rspStatus resetEdge = none ∧
    ({ nine with rsp := rspOf .inUse 3#64 } : State).rspData resetEdge = none := by decide
/-- A response waits: the offered command is not accepted, the response is taken. -/
theorem test_take_edge : after (step { nine with rsp := rspOf .ok 3#64, inputs := [takeEdge] }) = some nine := by decide
/-- The first step of the reset state, offered `CREATE 0, 0`. -/
theorem test_first_step : after (step (State.reset.withFetchWord 128 1)) =
    some { State.reset with cfgValid := true, bitWidth := 1#6, rsp := rspOf .ok 0#64 } := by decide
/-- V-E6 as a step. -/
theorem test_step_size : after (step (nine.withFetchWord 128 0xFFFFFFFFFFFFFFFF_FFFFFFFF_00000005)) =
    some { nine with rsp := rspOf .ok 16#64 } := by decide

/-! ## Witnesses: cases that meet the hypotheses of the obligations -/

/-- With nothing listed every bit reads 0. -/
theorem bitAt_nil (W b : Nat) (h8 : 8 ∣ W) (hp : 0 < W) : Machine.bitAt W [] b = false := by
  rw [bitAt_eq_readByte h8 hp]; simp

/-- A present array over empty storage meets the invariant. -/
theorem arr_inv {N n w wc : Nat} (hl : N * 8 < 2 ^ 64) (hn : n < 2 ^ 64) (h1 : 1 ≤ w) (h32 : w ≤ 32)
    (hc : wc = ceilDiv (n * w) 64) (hN : wc ≤ N) : (arr N n w wc []).Inv := by
  have e1 : (BitVec.ofNat 64 n).toNat = n := by rw [BitVec.toNat_ofNat]; exact Nat.mod_eq_of_lt hn
  have e2 : (BitVec.ofNat 6 w).toNat = w := by rw [BitVec.toNat_ofNat]; exact Nat.mod_eq_of_lt (by omega)
  have legal : (arr N n w wc []).cfg.legal := by change N * (32 * 2 ^ 1 / 8) < 2 ^ 64; omega
  have sticky : (arr N n w wc []).errSticky.getLsbD 0 = false := by change (0#6).getLsbD 0 = false; decide
  refine ⟨legal, Mem.wf_nil, fun c h => absurd h (by simp [arr]), sticky, by simp [arr], ?_, ?_, ?_,
    by simp [arr, blank]⟩
  · intro _; change 1 ≤ (BitVec.ofNat 6 w).toNat ∧ (BitVec.ofNat 6 w).toNat ≤ 32; omega
  · intro _
    change wc = ceilDiv ((BitVec.ofNat 64 n).toNat * (BitVec.ofNat 6 w).toNat) 64 ∧ wc ≤ N
    rw [e1, e2]; exact ⟨hc, hN⟩
  · intro _ b _ _
    exact bitAt_nil 64 b (by decide) (by decide)

theorem nine_inv : nine.Inv := arr_inv (by decide) (by decide) (by decide) (by decide) (by decide) (by decide)
theorem nine64_inv : nine64.Inv := arr_inv (by decide) (by decide) (by decide) (by decide) (by decide) (by decide)

/-- O2 and O5: each opcode, ones in every field the command ignores; and words of no row at the ends of the reserved range. -/
theorem wit_opcode_words :
    0xFFFFFFFFFFFFFFFF_FFFFFFFF_00000001#128 &&& 0xFFFFFFFF#128 = 1#128 ∧
    0xFFFFFFFFFFFFFFFF_FFFFFFFF_00000002#128 &&& 0xFFFFFFFF#128 = 2#128 ∧
    0xFFFFFFFFFFFFFFFF_FFFFFFFF_00000003#128 &&& 0xFFFFFFFF#128 = 3#128 ∧
    0xFFFFFFFFFFFFFFFF_FFFFFFFF_00000004#128 &&& 0xFFFFFFFF#128 = 4#128 ∧
    0xFFFFFFFFFFFFFFFF_FFFFFFFF_00000005#128 &&& 0xFFFFFFFF#128 = 5#128 ∧
    (0#128 &&& 0xFFFFFFFF#128) ∉ [1#128, 2#128, 3#128, 4#128, 5#128] ∧
    (6#128 &&& 0xFFFFFFFF#128) ∉ [1#128, 2#128, 3#128, 4#128, 5#128] ∧
    (0x11#128 &&& 0xFFFFFFFF#128) ∉ [1#128, 2#128, 3#128, 4#128, 5#128] := by decide

/-- StepRunsTheOfferedCommand, both clauses. -/
theorem wit_StepRunsTheOfferedCommand :
    (∃ (p : PortIn) (rest : List PortIn), (nine.offerNext 5#128).inputs = p :: rest ∧ p.rst = false ∧
      p.cmdValid = true ∧ (nine.offerNext 5#128).rsp = none ∧ decode p.cmdWord = .ok .size) ∧
    decodeTableWord 128 5 = some .size :=
  ⟨⟨offer 5#128, [], by decide⟩, by decide⟩

/-- IllegalWordRaisesIllegal: the lowest and highest reserved bit, opcode 0, opcode 6, opcode 15. -/
theorem wit_IllegalWordRaisesIllegal :
    (0x11#128).extractLsb' 4 28 ≠ 0#28 ∧ (0x80000001#128).extractLsb' 4 28 ≠ 0#28 ∧
    ((0#128).extractLsb' 0 4).toNat = 0 ∧ 6 ≤ ((6#128).extractLsb' 0 4).toNat ∧
    6 ≤ ((15#128).extractLsb' 0 4).toNat := by decide

/-- EdgeHandshake: the reset edge; ready, with and without a command; a response waiting, taken and not. -/
theorem wit_EdgeHandshake :
    ({ nine with inputs := [resetEdge] } : State).inputs = [resetEdge] ∧ resetEdge.rst = true ∧
    (offer 5#128).rst = false ∧ (offer 5#128).cmdValid = true ∧ nine.rsp = none ∧
    idleEdge.rst = false ∧ idleEdge.cmdValid = false ∧ idleEdge.rspReady = false ∧
    takeEdge.rst = false ∧ takeEdge.rspReady = true ∧
    ({ nine with rsp := rspOf .ok 3#64 } : State).rsp = some { status := .ok, data := 3#64 } ∧
    nine.errSticky.getLsbD 0 = false := by decide

/-- ResetGivesTheResetState. -/
theorem wit_ResetGivesTheResetState :
    ({ nine with rsp := rspOf .ok 3#64, inputs := [resetEdge, idleEdge] } : State).inputs = resetEdge :: [idleEdge] ∧
    resetEdge.rst = true := by decide

/-- IdleKeepsTheState: a silent host, and an idle edge while a response waits. -/
theorem wit_IdleKeepsTheState : nine.inputs = [] ∧
    ({ nine with rsp := rspOf .ok 3#64, inputs := [idleEdge] } : State).inputs = idleEdge :: [] ∧
    idleEdge.rst = false ∧ idleEdge.cmdValid = false ∧ idleEdge.rspReady = false := by decide

/-- StepKeepsTheParameters and StepKeepsTheInvariant: a step that changes the storage. -/
theorem wit_StepKeepsTheInvariant : (nine.withFetchWord 128 0x0000000000000007_00000155_00000002).Inv ∧
    step (nine.withFetchWord 128 0x0000000000000007_00000155_00000002) =
      .next { nine with storage := [(7, 0x80#8), (8, 0xAA#8)], rsp := rspOf .ok 0#64 } :=
  ⟨⟨nine_inv.legal, nine_inv.canonical, nine_inv.bounded, nine_inv.stickyZero, nine_inv.absent, nine_inv.width,
    nine_inv.count, nine_inv.padding, by decide⟩, by rfl⟩

/-- ResetMeetsTheInvariant: the largest and the smallest legal MAX_WORDS. -/
theorem wit_ResetMeetsTheInvariant : ({ widthExp := 1, maxWords := 2 ^ 61 - 1 } : Config).legal ∧
    ({ widthExp := 0, maxWords := 0 } : Config).legal := by decide

/-- EveryStepCompletes, WordCountFitsItsRegister, FirstApplicableStatusIsReported, SpansTileTheArray, PaddingBitsStayZero:
the invariant, with every word of the instance in use. -/
theorem wit_Inv : nine.Inv ∧ nine.cfgValid = true ∧ nine.wordCount = nine.cfg.maxWords := ⟨nine_inv, by decide⟩

/-- StopsOnlyAtWordsNotLive's first clause: each of the two words, in states no run reaches (a word count too small by two,
by one). -/
theorem wit_StopsOnlyAtWordsNotLive :
    (arr 2 8 9 0 []).cfgValid = true ∧ 7#64 < (arr 2 8 9 0 []).capacity ∧
    (arr 2 8 9 0 []).wordCount ≤ (decodeAddr 64 7 9).wordIndex ∧
    (arr 2 8 9 1 []).cfgValid = true ∧ 7#64 < (arr 2 8 9 1 []).capacity ∧ (decodeAddr 64 7 9).split = true ∧
    ¬ (arr 2 8 9 1 []).wordCount ≤ (decodeAddr 64 7 9).wordIndex ∧
    (arr 2 8 9 1 []).wordCount ≤ (decodeAddr 64 7 9).wordIndex + 1 := by decide

/-- StopsOnlyAtWordsNotLive's second clause: a SET and a GET that fault, each at one of the two words. -/
theorem wit_StopsOnlyAtWordsNotLive_fault : exec (.set 7#64 1#32) (arr 2 8 9 0 []) = .fault .wordNotLive ∧
    exec (.get 7#64) (arr 2 8 9 1 []) = .fault .wordNotLive := ⟨by rfl, by rfl⟩

/-- BitwidthIsTheHighestSetBitPlusOne: 0, the least and the greatest other value, the ends of both ranges of `k`. -/
theorem wit_Bitwidth : 1#32 ≠ 0#32 ∧ 0xFFFFFFFF#32 ≠ 0#32 ∧ (0 < 32 ∧ 31 < 32) ∧ (1 ≤ 1 ∧ 1 ≤ 32) ∧ (1 ≤ 32 ∧ 32 ≤ 32) := by
  decide

/-- WordcountIsTheExactCeiling: the largest operands, and a product of exactly one word. -/
theorem wit_Wordcount : (2 ^ 64 - 1 < 2 ^ 64 ∧ 1 ≤ 32 ∧ 32 ≤ 32) ∧
    (2 < 2 ^ 64 ∧ 1 ≤ 2 * 32 ∧ 2 * 32 ≤ ({ widthExp := 1, maxWords := 0 } : Config).wordBits) := by decide

/-- CreateEffect: an array present; one word too many; exactly `MAX_WORDS` words (V-C8). -/
theorem wit_CreateEffect : nine.cfgValid = true ∧
    ((blank 1).cfgValid = false ∧ (blank 1).cfg.maxWords < wordcount (blank 1).cfg.wordBits (8#64).toNat (bitwidth 511#32)) ∧
    ((blank 40).cfgValid = false ∧
      wordcount (blank 40).cfg.wordBits (80#64).toNat (bitwidth 0xFFFFFFFF#32) = (blank 40).cfg.maxWords) := by decide

/-- ZeroFillIsTheSpecsLoop: a byte inside and a byte outside the fill. -/
theorem wit_ZeroFillIsTheSpecsLoop : 8 ∣ 64 ∧ Mem.wf [(7, 5#8), (8, 6#8)] ∧
    Mem.zeroFill 64 [(7, 5#8), (8, 6#8)] 1 = [(8, 6#8)] := by decide

/-- CreatedElementsReadZero: the last element, over storage that is not 0. -/
theorem wit_CreatedElementsReadZero : ({ blank 2 with storage := [(8, 5#8)] } : State).cfgValid = false ∧
    wordcount (blank 2).cfg.wordBits (8#64).toNat (bitwidth 511#32) ≤ (blank 2).cfg.maxWords ∧ 7#64 < 8#64 := by decide

/-- EmptyArray: an instance without a word. -/
theorem wit_EmptyArray : (blank 0).cfgValid = false := by decide

/-- SizingExample: an instance of exactly that size. -/
theorem wit_SizingExample : (blank 125000).cfgValid = false ∧ (blank 125000).cfg.wordBits = 64 ∧
    125000 ≤ (blank 125000).cfg.maxWords := by decide

/-- AddressDecoderShiftForm: the ends of the widths, a split and a single-word element. -/
theorem wit_AddressDecoderShiftForm : (1 ≤ 1 ∧ 1 ≤ 32) ∧ (1 ≤ 32 ∧ 32 ≤ 32) ∧
    (decodeAddr 64 (7#64).toNat 9).split = true ∧ (decodeAddr 64 (8#64).toNat 9).split = false := by decide

/-- AddressDecoderProperties: a split element, the last one; and a width that divides the word. -/
theorem wit_AddressDecoderProperties :
    (nine.Inv ∧ nine.cfgValid = true ∧ 7#64 < nine.capacity ∧ (decodeAddr 64 7 9).split = true) ∧
    ((arr 1 8 8 1 []).Inv ∧ (arr 1 8 8 1 []).cfgValid = true ∧ 7#64 < (arr 1 8 8 1 []).capacity ∧ 8 ∣ 64) :=
  ⟨⟨nine_inv, by decide⟩,
    ⟨arr_inv (by decide) (by decide) (by decide) (by decide) (by decide) (by decide), by decide⟩⟩

/-- SplitIndicesOfWidthNine: the ends of the list and of the range, the largest value. -/
theorem wit_SplitIndicesOfWidthNine : (7 < 64 ∧ 56 < 64 ∧ 63 < 64) ∧
    nine64.Inv ∧ nine64.cfgValid = true ∧ nine64.cfg.wordBits = 64 ∧ nine64.bitWidth.toNat = 9 ∧
    64 ≤ nine64.capacity.toNat ∧ (56#64).toNat ∈ [7, 14, 21, 28, 35, 42, 49, 56] ∧ (511#32).toNat < 512 :=
  ⟨by decide, nine64_inv, by decide⟩

/-- SingleWordWriteBits: an element that ends with its word; its own top bit and a bit below it. -/
theorem wit_SingleWordWriteBits : 56 + 8 ≤ 64 ∧ (0xFF#64).toNat < 2 ^ 8 ∧ (63 < 64 ∧ 56 ≤ 63 ∧ 63 < 56 + 8) ∧
    (55 < 64 ∧ ¬ 56 ≤ 55) := by decide

/-- SplitWordWriteBits: 1 bit in the first word and 8 in the second; both sides of both boundaries. -/
theorem wit_SplitWordWriteBits : 63 < 64 ∧ 64 < 63 + 9 ∧ 9 ≤ 64 ∧ (511#64).toNat < 2 ^ 9 ∧
    (63 < 64 ∧ 63 ≤ 63) ∧ (62 < 64 ∧ ¬ 63 ≤ 62) ∧ (7 < 64 ∧ 7 < 9 - (64 - 63)) ∧ (8 < 64 ∧ ¬ 8 < 9 - (64 - 63)) := by decide

/-- MaskedReadBits: both cases at their boundaries. -/
theorem wit_MaskedReadBits : 56 + 8 ≤ 64 ∧ (63 < 64 ∧ 64 < 63 + 9 ∧ 9 ≤ 64 ∧ 0 < 64 - 63 ∧ ¬ 1 < 64 - 63) := by decide

/-- GetReturnsTheElement, SetWritesTheElementAlone, SetStoresBitsInStreamOrder, SetThenGetReturnsTheMaskedValue and
SetIsIdempotent: the last element, split. -/
theorem wit_element : nine.Inv ∧ nine.cfgValid = true ∧ 7#64 < nine.capacity ∧ (511#32).toNat < 2 ^ nine.bitWidth.toNat ∧
    8 < nine.bitWidth.toNat := ⟨nine_inv, by decide⟩

/-- SetKeepsOtherElements: two neighbours that share a word. -/
theorem wit_SetKeepsOtherElements : nine.Inv ∧ nine.cfgValid = true ∧ 6#64 < nine.capacity ∧ 7#64 < nine.capacity ∧
    6#64 ≠ 7#64 := ⟨nine_inv, by decide⟩

/-- GetAndSizeOnlyRead: a GET and a SIZE that complete. -/
theorem wit_GetAndSizeOnlyRead : exec (.get 7#64) nine = .next { nine with rsp := rspOf .ok 0#64 } ∧
    exec .size nine = .next { nine with rsp := rspOf .ok 16#64 } := ⟨by rfl, by rfl⟩

/-- SetErrors and GetErrors: no array, and the first index out of range. -/
theorem wit_SetErrors : (blank 2).cfgValid = false ∧ nine.cfgValid = true ∧ nine.capacity ≤ 8#64 := by decide

/-- DestroyEffect: both clauses. -/
theorem wit_DestroyEffect : (blank 2).cfgValid = false ∧ nine.cfgValid = true := by decide

/-- DestroyedArrayIsNotReusable: a new array that just fits, and its last element. -/
theorem wit_DestroyedArrayIsNotReusable :
    wordcount nine.cfg.wordBits (4#64).toNat (bitwidth 0xFFFFFFFF#32) ≤ nine.cfg.maxWords ∧ 3#64 < 4#64 := by decide

/-- SizeEffect: its three clauses, the second at the largest storage of all. -/
theorem wit_SizeEffect : (blank 2).cfgValid = false ∧
    ((arr (2 ^ 61 - 1) (2 ^ 62 - 2) 32 (2 ^ 61 - 1) []).cfgValid = true ∧
      (arr (2 ^ 61 - 1) (2 ^ 62 - 2) 32 (2 ^ 61 - 1) []).wordCount *
        ((arr (2 ^ 61 - 1) (2 ^ 62 - 2) 32 (2 ^ 61 - 1) []).cfg.wordBits / 8) < 2 ^ 64) ∧ nine.Inv :=
  ⟨by decide, by decide, nine_inv⟩

/-- ErrorsChangeOnlyTheStickyBit and StickyBitsStayUntilReset: an error beside a sticky bit that was set before. -/
theorem wit_errors : runCommand 0x13#128 { nine with errSticky := 2#6 } =
      .next { nine with errSticky := 0x22#6, rsp := rspOf .illegal 0#64 } ∧ Status.illegal ≠ .ok := ⟨by rfl, by decide⟩

/-- StickyBitsStayUntilReset's step clauses, with bit 1 set before: the taking of a response, an idle edge, no edge at all, a
command that is accepted and fails, and a reset edge. -/
theorem wit_StickyBitsStayUntilReset_step :
    step { nine with errSticky := 2#6, rsp := rspOf .ok 3#64, inputs := [takeEdge] } = .next { nine with errSticky := 2#6 } ∧
    takeEdge.rst = false ∧
    step { nine with errSticky := 2#6, inputs := [idleEdge] } = .next { nine with errSticky := 2#6 } ∧
    idleEdge.rst = false ∧ idleEdge.cmdValid = false ∧
    step { nine with errSticky := 2#6 } = .next { nine with errSticky := 2#6 } ∧ nine.inputs.head? = none ∧
    step { nine with errSticky := 2#6, inputs := [offer 0x13#128] } =
      .next { nine with errSticky := 0x22#6, rsp := rspOf .illegal 0#64 } ∧ (offer 0x13#128).rst = false ∧
    ({ nine with errSticky := 2#6, inputs := [resetEdge] } : State).inputs = resetEdge :: [] ∧ resetEdge.rst = true :=
  ⟨by rfl, by decide, by rfl, by decide, by decide, by rfl, by decide, by rfl, by decide, by decide, by decide⟩

/-- ErrorsNeverBlockLaterCommands: an edge ready for a command after an error, and the step that accepts it. -/
theorem wit_ErrorsNeverBlockLaterCommands : (offer 5#128).rst = false ∧
    ({ nine with errSticky := 0x3E#6, inputs := [offer 5#128] } : State).rsp = none ∧
    step { nine with errSticky := 0x3E#6, inputs := [offer 5#128] } =
      .next { nine with errSticky := 0x3E#6, rsp := rspOf .ok 16#64 } := ⟨by decide, by decide, by rfl⟩

/-- ErrorsNeverBlockLaterCommands, and OnlyGetAndSizeAnswerNonzeroData's GET clause. -/
theorem wit_get_data : runCommand 0x0000000000000007_12345678_00000003#128
      { nine with errSticky := 0x3E#6, storage := [(7, 0x80#8), (8, 0xAA#8)] } =
    .next { nine with errSticky := 0x3E#6, storage := [(7, 0x80#8), (8, 0xAA#8)], rsp := rspOf .ok 0x155#64 } ∧
    0x155#64 ≠ 0#64 := ⟨by rfl, by decide⟩

/-- OnlyGetAndSizeAnswerNonzeroData's SIZE clause. -/
theorem wit_size_data : runCommand 5#128 nine = .next { nine with rsp := rspOf .ok 16#64 } ∧ 16#64 ≠ 0#64 := ⟨by rfl, by decide⟩

/-- CleanStickyMeansNoErrorHappened: a command accepted, and no error. -/
theorem wit_CleanStickyMeansNoErrorHappened : ∃ (s t : State) (p : PortIn), s.inputs = p :: [] ∧ p.rst = false ∧
    step s = .next t ∧ t.clean ∧ p.cmdValid = true ∧ s.rsp = none :=
  ⟨nine.offerNext 5#128, { nine with rsp := rspOf .ok 16#64 }, offer 5#128, rfl, rfl, by rfl, by rfl, rfl, rfl⟩

/-- ConfigurationIsImmutable: a SET; an edge without a command; an edge at which a response waits. -/
theorem wit_ConfigurationIsImmutable :
    (nine.cfgValid = true ∧ decode 0x0000000000000007_00000155_00000002#128 ≠ .ok .destroy ∧
      runCommand 0x0000000000000007_00000155_00000002#128 nine =
        .next { nine with storage := [(7, 0x80#8), (8, 0xAA#8)], rsp := rspOf .ok 0#64 }) ∧
    (idleEdge.rst = false ∧ idleEdge.cmdValid = false ∧
      step { nine with inputs := [idleEdge] } = .next nine) ∧
    (takeEdge.rst = false ∧ ({ nine with rsp := rspOf .ok 3#64 } : State).rsp.isSome = true ∧
      step { nine with rsp := rspOf .ok 3#64, inputs := [takeEdge] } = .next nine) :=
  ⟨⟨by decide, by decide, by rfl⟩, ⟨by decide, by decide, by rfl⟩, ⟨by decide, by decide, by rfl⟩⟩

/-- SpansTileTheArray and PaddingBitsStayZero: the last bit of the last element, the first and the last padding bit. -/
theorem wit_spans : nine.Inv ∧ nine.cfgValid = true ∧ 7 < nine.capacity.toNat ∧
    (7 * nine.bitWidth.toNat ≤ 71 ∧ 71 < 7 * nine.bitWidth.toNat + nine.bitWidth.toNat) ∧
    71 < nine.capacity.toNat * nine.bitWidth.toNat ∧
    (nine.capacity.toNat * nine.bitWidth.toNat ≤ 72 ∧ 127 < nine.wordCount * nine.cfg.wordBits) := ⟨nine_inv, by decide⟩

/-- PaddingBitsStayZero's second clause: a command that writes the word of the padding bits. -/
theorem wit_padding_step : nine.Inv ∧ runCommand 0x0000000000000007_00000155_00000002#128 nine =
    .next { nine with storage := [(7, 0x80#8), (8, 0xAA#8)], rsp := rspOf .ok 0#64 } := ⟨nine_inv, by rfl⟩

/-- DeadStorageIsUnobservable: two states that differ in the first word that is not live, and a step. -/
theorem wit_DeadStorageIsUnobservable :
    (nine.offerNext 5#128).SameLive { nine.offerNext 5#128 with storage := [(16, 1#8)] } ∧
    (nine.offerNext 5#128).storage.wf ∧ Mem.wf [(16, 1#8)] ∧
    step (nine.offerNext 5#128) = .next { nine with rsp := rspOf .ok 16#64 } := by
  refine ⟨⟨rfl, rfl, rfl, rfl, rfl, rfl, rfl, rfl, fun b hb => ?_⟩, by decide, by decide, by rfl⟩
  have hb : b < 128 := hb
  change Machine.bitAt 64 [] b = Machine.bitAt 64 [(16, 1#8)] b
  rw [bitAt_nil _ _ (by decide) (by decide), bitAt_eq_readByte (by decide) (by decide), Mem.readByte,
    if_neg (by omega), Mem.readByte_nil]
  simp

/-- LittleEndianByteView: the top bit of the top byte of a word. -/
theorem wit_LittleEndianByteView : 7 < ({ widthExp := 1, maxWords := 2 } : Config).wordBytes ∧ 7 < 8 ∧
    ({ widthExp := 1, maxWords := 2 } : Config).wordBits = 64 := by decide

/-- MemReadAfterMemWrite: the last live word and its neighbour. -/
theorem wit_MemReadAfterMemWrite : Mem.wf [(7, 5#8)] ∧ 1 < 2 ∧ 0 ≠ 1 := by decide

end Sys2Proof.Tests
end

section
/-! Proofs of the scope's statements (spec/00_scope.md): MemRead and MemWrite (R14), what every command can answer (R15),
the one fault, and the parameters (R11). -/

namespace Sys2Proof.Machine

/-! ## MemRead after MemWrite -/

/-- MemRead sees of a memory only the word it reads. -/
theorem memRead_congr {W : Nat} {m m' : Mem} {k : Nat} (h : m'.readWord W k = m.readWord W k) (wc : Nat) :
    memRead W wc m' k = memRead W wc m k := by
  rw [memRead, memRead, h]

/-- Settles O56: the word read after a word write (`Mem.readWord_writeWord`), at the written and at another index. -/
theorem memReadAfterMemWrite : Obligations.MemReadAfterMemWrite := by
  intro c wc m k v hm hk
  have read_after := Mem.readWord_writeWord c.eight_dvd_wordBits hm k
  refine ⟨m.writeWord c.wordBits k v, memWrite_of_lt hk, ?_, fun k' hne => ?_⟩
  · rw [memRead_of_lt hk, read_after, if_pos rfl]
  · exact memRead_congr ((read_after k' v).trans (if_neg hne)) wc

/-! ## Elements whose words are not live -/

/-- A word that element `i` of width `w` needs is at or above the word count `wc` (spec/41_write.md R100). -/
def ElementNotLive (W wc i w : Nat) : Prop :=
  wc ≤ (decodeAddr W i w).wordIndex ∨ ((decodeAddr W i w).split = true ∧ wc ≤ (decodeAddr W i w).wordIndex + 1)

theorem not_elementNotLive_of_single {W wc i w : Nat} (hlive : (decodeAddr W i w).wordIndex < wc)
    (hs : (decodeAddr W i w).split = false) : ¬ ElementNotLive W wc i w := by
  simp [ElementNotLive, hs, hlive]

theorem not_elementNotLive_of_split {W wc i w : Nat} (hlive : (decodeAddr W i w).wordIndex + 1 < wc) :
    ¬ ElementNotLive W wc i w := by
  unfold ElementNotLive; omega

/-- The element reader fails exactly where a word is not live. -/
theorem readElement_eq_error_iff (W wc : Nat) (m : Mem) (i w : Nat) (f : Fault) :
    readElement W wc m i w = .error f ↔ ElementNotLive W wc i w := by
  rcases readElement_cases W wc m i w with ⟨hlive, hs, e⟩ | ⟨hlive, _, e⟩ | ⟨hdead, e⟩
  · simp [e, not_elementNotLive_of_single hlive hs]
  · simp [e, not_elementNotLive_of_split hlive]
  · exact ⟨fun _ => hdead, fun _ => e⟩

/-- The element writer fails exactly where a word is not live. -/
theorem writeElement_eq_error_iff (W wc : Nat) (m : Mem) (i w : Nat) (v : StorageWord W) (f : Fault) :
    writeElement W wc m i w v = .error f ↔ ElementNotLive W wc i w := by
  rcases writeElement_cases W wc m i w v with ⟨hlive, hs, e⟩ | ⟨hlive, _, e⟩ | ⟨hdead, e⟩
  · simp [e, not_elementNotLive_of_single hlive hs]
  · simp [e, not_elementNotLive_of_split hlive]
  · exact ⟨fun _ => hdead, fun _ => e⟩

/-- An array is present, `a` is below `CAPACITY`, and a word of element `a` is not live: no state of the invariant. -/
structure State.NotLiveAt (s : State) (a : Index) : Prop where
  present : s.cfgValid = true
  inRange : a < s.capacity
  notLive : ElementNotLive s.cfg.wordBits s.wordCount a.toNat s.bitWidth.toNat

/-- SET faults where a word of its element is not live. -/
theorem execSet_of_notLiveAt {a : Index} {s : State} (h : s.NotLiveAt a) (b : Value) :
    execSet a b s = .fault .wordNotLive := by
  obtain ⟨hv, ha, hdead⟩ := h
  rcases execSet_cases a b s with ⟨hnv, _⟩ | ⟨_, hge, _⟩ | ⟨_, _, ⟨m, hok, _⟩ | ⟨f, _, e⟩⟩
  · simp [hv] at hnv
  · exact absurd ha (BitVec.not_lt.2 hge)
  · simp [(writeElement_eq_error_iff _ _ _ _ _ _ .wordNotLive).2 hdead] at hok
  · cases f; exact e

/-- GET faults where a word of its element is not live. -/
theorem execGet_of_notLiveAt {a : Index} {s : State} (h : s.NotLiveAt a) :
    execGet a s = .fault .wordNotLive := by
  obtain ⟨hv, ha, hdead⟩ := h
  rcases execGet_cases a s with ⟨hnv, _⟩ | ⟨_, hge, _⟩ | ⟨_, _, ⟨v, hok, _⟩ | ⟨f, _, e⟩⟩
  · simp [hv] at hnv
  · exact absurd ha (BitVec.not_lt.2 hge)
  · simp [(readElement_eq_error_iff _ _ _ _ _ .wordNotLive).2 hdead] at hok
  · cases f; exact e

/-! ## What every command can answer -/

/-- What a command that completes without an error keeps of `s`, whatever else it changes, and its status. -/
structure State.OkAnswer (s t : State) : Prop where
  cfg : t.cfg = s.cfg
  errSticky : t.errSticky = s.errSticky
  inputs : t.inputs = s.inputs
  rsp : ∃ data, t.rsp = some { status := .ok, data := data }

/-- All that a command can do: `raise Error(c)` with an error status, complete with `OK`, or, a SET or a GET alone, fault at
a word that is not live (spec/00_scope.md R14, R15). -/
theorem exec_cases (i : Instr) (s : State) :
    (∃ c, c ≠ .ok ∧ exec i s = .next (s.raiseError c)) ∨
    (∃ t, exec i s = .next t ∧ s.OkAnswer t) ∨
    (∃ a, (i = .get a ∨ ∃ b, i = .set a b) ∧ s.NotLiveAt a ∧ exec i s = .fault .wordNotLive) := by
  cases i with
  | create a b =>
    rcases execCreate_cases a b s with ⟨_, e⟩ | ⟨_, _, e⟩ | ⟨_, _, e⟩
    · exact .inl ⟨.inUse, by decide, e⟩
    · exact .inl ⟨.allocFail, by decide, e⟩
    · exact .inr (.inl ⟨_, e, rfl, rfl, rfl, _, rfl⟩)
  | set a b =>
    rcases execSet_cases a b s with ⟨_, e⟩ | ⟨_, _, e⟩ | ⟨hv, ha, ⟨m, _, e⟩ | ⟨f, herr, e⟩⟩
    · exact .inl ⟨.noArray, by decide, e⟩
    · exact .inl ⟨.outOfRange, by decide, e⟩
    · exact .inr (.inl ⟨_, e, rfl, rfl, rfl, _, rfl⟩)
    · have hdead : s.NotLiveAt a := ⟨hv, ha, (writeElement_eq_error_iff _ _ _ _ _ _ f).1 herr⟩
      exact .inr (.inr ⟨a, .inr ⟨b, rfl⟩, hdead, execSet_of_notLiveAt hdead b⟩)
  | get a =>
    rcases execGet_cases a s with ⟨_, e⟩ | ⟨_, _, e⟩ | ⟨hv, ha, ⟨v, _, e⟩ | ⟨f, herr, e⟩⟩
    · exact .inl ⟨.noArray, by decide, e⟩
    · exact .inl ⟨.outOfRange, by decide, e⟩
    · exact .inr (.inl ⟨_, e, rfl, rfl, rfl, _, rfl⟩)
    · have hdead : s.NotLiveAt a := ⟨hv, ha, (readElement_eq_error_iff _ _ _ _ _ f).1 herr⟩
      exact .inr (.inr ⟨a, .inl rfl, hdead, execGet_of_notLiveAt hdead⟩)
  | destroy =>
    rcases execDestroy_cases s with ⟨_, e⟩ | ⟨_, e⟩
    · exact .inr (.inl ⟨_, e, rfl, rfl, rfl, _, rfl⟩)
    · exact .inr (.inl ⟨_, e, rfl, rfl, rfl, _, rfl⟩)
  | size =>
    rcases execSize_cases s with ⟨_, e⟩ | ⟨_, e⟩
    · exact .inl ⟨.noArray, by decide, e⟩
    · exact .inr (.inl ⟨_, e, rfl, rfl, rfl, _, rfl⟩)

/-- All that a command word which completes can answer: `raise Error(c)` with an error status, or `OK` (R15). -/
theorem runCommand_next_cases {w : CmdWord} {s t : State} (h : runCommand w s = .next t) :
    (∃ c, c ≠ .ok ∧ t = s.raiseError c) ∨ s.OkAnswer t := by
  rcases runCommand_cases w s with ⟨i, _, e⟩ | ⟨_, _, e⟩
  · rcases exec_cases i s with ⟨c, hc, e'⟩ | ⟨u, e', hu⟩ | ⟨_, _, _, e'⟩ <;> rw [e, e'] at h
    · exact .inl ⟨c, hc, (Host.Outcome.next.inj h).symm⟩
    · exact .inr (Host.Outcome.next.inj h ▸ hu)
    · cases h
  · rw [e] at h
    exact .inl ⟨.illegal, by decide, (Host.Outcome.next.inj h).symm⟩

/-! ## The statements -/

/-- Settles O17, by all that a command can do (`exec_cases`). -/
theorem stopsOnlyAtWordsNotLive : Obligations.StopsOnlyAtWordsNotLive := by
  refine ⟨fun s a b hv ha hdead => ?_, fun i s f h => ?_, fun i s r h => ?_⟩
  · exact ⟨execSet_of_notLiveAt ⟨hv, ha, hdead⟩ b, execGet_of_notLiveAt ⟨hv, ha, hdead⟩⟩
  · rcases exec_cases i s with ⟨_, _, e⟩ | ⟨_, e, _⟩ | ⟨a, hi, ⟨hv, ha, hdead⟩, e⟩ <;> rw [e] at h
    · cases h
    · cases h
    · exact ⟨(Host.Outcome.fault.inj h).symm, hv, a, hi, ha, hdead⟩
  · rcases exec_cases i s with ⟨_, _, e⟩ | ⟨_, e, _⟩ | ⟨_, _, _, e⟩ <;> rw [e] at h <;> cases h

/-- Settles O45: a response with an error status comes from `raise Error` alone (`runCommand_next_cases`). -/
theorem errorsChangeOnlyTheStickyBit : Obligations.ErrorsChangeOnlyTheStickyBit := by
  intro w s t r h hr hstatus
  rcases runCommand_next_cases h with ⟨c, hc, rfl⟩ | hok
  · cases hr
    rw [State.raiseError_eq, Status.stickyBit_eq c hc]
  · obtain ⟨data, hdata⟩ := hok.rsp
    cases hdata.symm.trans hr
    exact absurd rfl hstatus

/-- A command word that completes keeps the parameters (R11). -/
theorem runCommand_cfg {w : CmdWord} {s t : State} (h : runCommand w s = .next t) : t.cfg = s.cfg := by
  rcases runCommand_next_cases h with ⟨c, _, rfl⟩ | hok
  · exact State.raiseError_cfg s c
  · exact hok.cfg

/-- An edge keeps the parameters (R11). -/
theorem onEdge_cfg {p : PortIn} {s t : State} (h : onEdge p s = .next t) : t.cfg = s.cfg := by
  rcases onEdge_cases p s with ⟨_, e⟩ | ⟨_, _, _, e⟩ | ⟨_, _, _, e⟩ | ⟨_, _, _, e⟩ <;> rw [e] at h
  case inr.inl => exact runCommand_cfg h
  all_goals cases h; rfl

/-- Settles O13, by whether the host drives an edge, and at it by `onEdge_cfg`. -/
theorem stepKeepsTheParameters : Obligations.StepKeepsTheParameters := by
  intro s t h
  cases hin : s.inputs with
  | nil =>
    rw [step_nil hin] at h
    cases h; rfl
  | cons p rest =>
    rw [step_cons hin] at h
    exact (onEdge_cfg h :)

end Sys2Proof.Machine
end

section
/-! Facts for the statements of the state (spec/10_state.md): the bits of a masked write (spec/41_write.md R102, R103),
what an element write does to storage, each meaning case by case, every way in which a command can complete, and the
edges. -/

namespace Sys2Proof.Machine

/-! ## The bits of a masked write -/

/-- A value below `2^w` has no bit at or above `w`. -/
theorem getLsbD_eq_false_of_lt_two_pow {W : Nat} {v : StorageWord W} {w j : Nat} (hv : v.toNat < 2 ^ w) (hj : w ≤ j) :
    v.getLsbD j = false :=
  Nat.testBit_lt_two_pow (hv.trans_le (Nat.pow_le_pow_right (by decide) hj))

/-- The single-word masked write replaces the element's bits alone (R102). -/
theorem getLsbD_writeSingle {W : Nat} {v : StorageWord W} {w : Nat} (hv : v.toNat < 2 ^ w) (old : StorageWord W)
    (off j : Nat) (hj : j < W) :
    (writeSingle old off w v).getLsbD j =
      if off ≤ j ∧ j < off + w then v.getLsbD (j - off) else old.getLsbD j := by
  have hlow : w ≤ j - off → v.getLsbD (j - off) = false := getLsbD_eq_false_of_lt_two_pow hv
  simp only [writeSingle, BitVec.getLsbD_or, BitVec.getLsbD_and, BitVec.getLsbD_not, BitVec.getLsbD_shiftLeft,
    getLsbD_lowMask, hj, decide_true, Bool.true_and]
  by_cases hoff : j < off
  · simp [hoff, show ¬ off ≤ j by omega]
  · by_cases hin : j < off + w
    · simp [hoff, hin, show off ≤ j by omega, show j - off < w by omega, show j - off < W by omega]
    · simp [hoff, hin, show ¬ j - off < w by omega, hlow (by omega)]

/-- The split-word masked write keeps the first word below the element and puts the value's low bits above (R103). -/
theorem getLsbD_writeSplitFirst {W : Nat} (old v : StorageWord W) (off j : Nat) (hj : j < W) :
    (writeSplitFirst old off (W - off) v).getLsbD j = if off ≤ j then v.getLsbD (j - off) else old.getLsbD j := by
  simp only [writeSplitFirst, BitVec.getLsbD_or, BitVec.getLsbD_and, BitVec.getLsbD_shiftLeft,
    getLsbD_lowMask, hj, decide_true, Bool.true_and]
  by_cases hoff : off ≤ j
  · simp [hoff, show ¬ j < off by omega, show j - off < W by omega, show j - off < W - off by omega]
  · simp [hoff, show j < off by omega]

/-- The split-word masked write puts the value's high bits at the bottom of the second word and keeps what is above them
(R103). -/
theorem getLsbD_writeSplitSecond {W : Nat} (old v : StorageWord W) (b1 b2 j : Nat) (hj : j < W) :
    (writeSplitSecond old b1 b2 v).getLsbD j = if j < b2 then v.getLsbD (b1 + j) else old.getLsbD j := by
  simp only [writeSplitSecond, BitVec.getLsbD_or, BitVec.getLsbD_and, BitVec.getLsbD_not, BitVec.getLsbD_ushiftRight,
    getLsbD_lowMask, hj, decide_true, Bool.true_and]
  by_cases hb : j < b2 <;> simp [hb]

/-! ## The element writer, case by case -/

theorem writeElement_of_single {W wc i w : Nat} (hlive : (decodeAddr W i w).wordIndex < wc)
    (hs : (decodeAddr W i w).split = false) (m : Mem) (v : StorageWord W) :
    writeElement W wc m i w v = .ok (m.writeWord W (decodeAddr W i w).wordIndex
      (writeSingle (m.readWord W (decodeAddr W i w).wordIndex) (decodeAddr W i w).bitOffset w v)) := by
  rcases writeElement_cases W wc m i w v with ⟨_, _, e⟩ | ⟨_, hs', _⟩ | ⟨hdead, _⟩
  · exact e
  · simp [hs] at hs'
  · exact absurd hdead (not_elementNotLive_of_single hlive hs)

theorem writeElement_of_split {W wc i w : Nat} (hlive : (decodeAddr W i w).wordIndex + 1 < wc)
    (hs : (decodeAddr W i w).split = true) (m : Mem) (v : StorageWord W) :
    writeElement W wc m i w v = .ok ((m.writeWord W (decodeAddr W i w).wordIndex
        (writeSplitFirst (m.readWord W (decodeAddr W i w).wordIndex) (decodeAddr W i w).bitOffset
          (decodeAddr W i w).bitsInFirst v)).writeWord W ((decodeAddr W i w).wordIndex + 1)
        (writeSplitSecond (m.readWord W ((decodeAddr W i w).wordIndex + 1)) (decodeAddr W i w).bitsInFirst
          (decodeAddr W i w).bitsInSecond v)) := by
  rcases writeElement_cases W wc m i w v with ⟨_, hs', _⟩ | ⟨_, _, e⟩ | ⟨hdead, _⟩
  · simp [hs] at hs'
  · exact e
  · exact absurd hdead (not_elementNotLive_of_split hlive)

theorem readElement_of_single {W wc i w : Nat} (hlive : (decodeAddr W i w).wordIndex < wc)
    (hs : (decodeAddr W i w).split = false) (m : Mem) :
    readElement W wc m i w =
      .ok (readSingle (m.readWord W (decodeAddr W i w).wordIndex) (decodeAddr W i w).bitOffset w) := by
  rcases readElement_cases W wc m i w with ⟨_, _, e⟩ | ⟨_, hs', _⟩ | ⟨hdead, _⟩
  · exact e
  · simp [hs] at hs'
  · exact absurd hdead (not_elementNotLive_of_single hlive hs)

theorem readElement_of_split {W wc i w : Nat} (hlive : (decodeAddr W i w).wordIndex + 1 < wc)
    (hs : (decodeAddr W i w).split = true) (m : Mem) :
    readElement W wc m i w =
      .ok (readSplit (m.readWord W (decodeAddr W i w).wordIndex) (m.readWord W ((decodeAddr W i w).wordIndex + 1))
        (decodeAddr W i w).bitOffset (decodeAddr W i w).bitsInFirst (decodeAddr W i w).bitsInSecond) := by
  rcases readElement_cases W wc m i w with ⟨_, hs', _⟩ | ⟨_, _, e⟩ | ⟨hdead, _⟩
  · simp [hs] at hs'
  · exact e
  · exact absurd hdead (not_elementNotLive_of_split hlive)

/-! ## What an element write does to storage -/

/-- An element write keeps the canonical form. -/
theorem writeElement_wf {W wc i w : Nat} {m m' : Mem} {v : StorageWord W} (hm : m.wf)
    (h : writeElement W wc m i w v = .ok m') : m'.wf := by
  rcases writeElement_cases W wc m i w v with ⟨_, _, e⟩ | ⟨_, _, e⟩ | ⟨_, e⟩ <;> cases e.symm.trans h
  · exact Mem.writeWord_wf hm _ _ _
  · exact Mem.writeWord_wf (Mem.writeWord_wf hm _ _ _) _ _ _

/-- Every listed address lies in the first `N` words (spec/10_state.md R27). -/
def Mem.Within (W N : Nat) (m : Mem) : Prop := ∀ c ∈ m, c.1 < N * (W / 8)

/-- A word write at an index below `N` lists no address outside the first `N` words. -/
theorem Mem.Within.writeWord {W N k : Nat} {m : Mem} (hm : m.Within W N) (hk : k < N) (v : StorageWord W) :
    (m.writeWord W k v).Within W N := by
  intro c hc
  rcases Mem.mem_writeBytes hc with ⟨_, hlt⟩ | hc
  · have : (k + 1) * (W / 8) ≤ N * (W / 8) := Nat.mul_le_mul_right _ hk
    rw [Nat.succ_mul, Nat.mul_comm k] at this
    exact hlt.trans_le this
  · exact hm c hc

/-- An element write lists no address outside the live words anew. -/
theorem Mem.Within.writeElement {W N wc i w : Nat} {m m' : Mem} {v : StorageWord W} (hm : m.Within W N) (hN : wc ≤ N)
    (h : writeElement W wc m i w v = .ok m') : m'.Within W N := by
  rcases writeElement_cases W wc m i w v with ⟨hlive, _, e⟩ | ⟨hlive, _, e⟩ | ⟨_, e⟩ <;> cases e.symm.trans h
  · exact hm.writeWord (by omega) _
  · exact (hm.writeWord (by omega) _).writeWord (by omega) _

/-- An element write stores the value's bits at the element's bit addresses and changes no other (spec/20_memory.md R41,
spec/41_write.md R104). -/
theorem bitAt_writeElement {W wc i w : Nat} {m m' : Mem} {v : StorageWord W} (hW : 8 ∣ W) (hpos : 0 < W) (hm : m.wf)
    (hw : w ≤ W) (hv : v.toNat < 2 ^ w) (h : writeElement W wc m i w v = .ok m') (b : Nat) :
    bitAt W m' b = if i * w ≤ b ∧ b < i * w + w then v.getLsbD (b - i * w) else bitAt W m b := by
  obtain ⟨_, hstart, hoff, hsplit, hfirst, hsecond⟩ := decodeAddr_spec hpos i w
  have hb : b = b / W * W + b % W := (Nat.div_add_mod' b W).symm
  have hr : b % W < W := Nat.mod_lt _ hpos
  have hbelow : ∀ {k}, b / W < k → b / W * W + W ≤ k * W := fun hk => by
    rw [← Nat.succ_mul]; exact Nat.mul_le_mul_right _ hk
  have habove : ∀ {k}, k < b / W → k * W + W ≤ b / W * W := fun hk => by
    rw [← Nat.succ_mul]; exact Nat.mul_le_mul_right _ hk
  rcases writeElement_cases W wc m i w v with ⟨_, hs, e⟩ | ⟨_, hs, e⟩ | ⟨_, e⟩ <;> cases e.symm.trans h <;>
    rw [hs] at hsplit hfirst hsecond <;> generalize decodeAddr W i w = d at *
  · have hfit : d.bitOffset + w ≤ W := by simpa using hsplit
    rw [bitAt_writeWord hW hm]
    rcases lt_trichotomy (b / W) d.wordIndex with hk | hk | hk
    · rw [if_neg hk.ne, if_neg (by have := hbelow hk; omega)]
    · rw [if_pos hk, getLsbD_writeSingle hv _ _ _ hr, ← hk, bitAt]
      rw [← hk] at hstart
      exact if_congr (by omega) (congrArg _ (by omega)) rfl
    · rw [if_neg hk.ne', if_neg (by have := habove hk; omega)]
  · have hspan : W < d.bitOffset + w := by simpa using hsplit
    simp only [if_true] at hfirst hsecond
    have hnext : (d.wordIndex + 1) * W = d.wordIndex * W + W := Nat.succ_mul _ _
    rw [bitAt_writeWord hW (Mem.writeWord_wf hm _ _ _), bitAt_writeWord hW hm, hfirst, hsecond]
    rcases lt_trichotomy (b / W) d.wordIndex with hk | hk | hk
    · rw [if_neg (by omega), if_neg hk.ne, if_neg (by have := hbelow hk; omega)]
    · rw [if_neg (by omega), if_pos hk, getLsbD_writeSplitFirst _ _ _ _ hr, ← hk, bitAt]
      rw [← hk] at hstart
      exact if_congr (by omega) (congrArg _ (by omega)) rfl
    · by_cases hk1 : b / W = d.wordIndex + 1
      · rw [if_pos hk1, getLsbD_writeSplitSecond _ _ _ _ _ hr, ← hk1, bitAt]
        rw [← hk1] at hnext
        exact if_congr (by omega) (congrArg _ (by omega)) rfl
      · rw [if_neg hk1, if_neg hk.ne', if_neg (by have := habove (show d.wordIndex + 1 < b / W by omega); omega)]

/-! ## The meanings, one equation per case -/

/-- The state in which CREATE has made the array (spec/40_construction.md R84). -/
def State.created (s : State) (a : Index) (b : Value) : State :=
  { s with
    storage := Mem.zeroFill s.cfg.wordBits s.storage (wordcount s.cfg.wordBits a.toNat (bitwidth b))
    capacity := a
    bitWidth := BitVec.ofNat 6 (bitwidth b)
    wordCount := wordcount s.cfg.wordBits a.toNat (bitwidth b)
    cfgValid := true }

/-- The state in which DESTROY has released the array (spec/43_teardown_accessor.md R140). -/
def State.released (s : State) : State :=
  { s with cfgValid := false, capacity := 0#64, bitWidth := 0#6, wordCount := 0 }

section Equations

variable {a : Index} {b : Value} {s : State}

theorem execCreate_of_present (hv : s.cfgValid = true) : execCreate a b s = .next (s.raiseError .inUse) := by
  simp [execCreate, hv]

theorem execCreate_of_too_large (hv : s.cfgValid = false)
    (hw : s.cfg.maxWords < wordcount s.cfg.wordBits a.toNat (bitwidth b)) :
    execCreate a b s = .next (s.raiseError .allocFail) := by
  simp [execCreate, hv, hw]

theorem execCreate_of_fits (hv : s.cfgValid = false)
    (hw : wordcount s.cfg.wordBits a.toNat (bitwidth b) ≤ s.cfg.maxWords) :
    execCreate a b s = .next ((s.created a b).respond .ok 0#64) := by
  simp [execCreate, hv, State.created, Nat.not_lt.2 hw]

theorem execSet_of_absent (hv : s.cfgValid = false) : execSet a b s = .next (s.raiseError .noArray) := by
  simp [execSet, hv]

theorem execSet_of_out_of_range (hv : s.cfgValid = true) (ha : s.capacity ≤ a) :
    execSet a b s = .next (s.raiseError .outOfRange) := by
  simp [execSet, hv, ha]

theorem execSet_of_written {m : Mem} (hv : s.cfgValid = true) (ha : a < s.capacity)
    (hm : writeElement s.cfg.wordBits s.wordCount s.storage a.toNat s.bitWidth.toNat
      (maskedValue s.cfg.wordBits s.bitWidth.toNat b) = .ok m) :
    execSet a b s = .next (State.respond { s with storage := m } .ok 0#64) := by
  simp [execSet, hv, BitVec.not_le.2 ha, hm]

theorem execGet_of_absent (hv : s.cfgValid = false) : execGet a s = .next (s.raiseError .noArray) := by
  simp [execGet, hv]

theorem execGet_of_out_of_range (hv : s.cfgValid = true) (ha : s.capacity ≤ a) :
    execGet a s = .next (s.raiseError .outOfRange) := by
  simp [execGet, hv, ha]

theorem execGet_of_read {v : StorageWord s.cfg.wordBits} (hv : s.cfgValid = true) (ha : a < s.capacity)
    (hr : readElement s.cfg.wordBits s.wordCount s.storage a.toNat s.bitWidth.toNat = .ok v) :
    execGet a s = .next (s.respond .ok (v.setWidth 64)) := by
  simp [execGet, hv, BitVec.not_le.2 ha, hr]

theorem execDestroy_of_absent (hv : s.cfgValid = false) : execDestroy s = .next (s.respond .ok 0#64) := by
  simp [execDestroy, hv]

theorem execDestroy_of_present (hv : s.cfgValid = true) : execDestroy s = .next (s.released.respond .ok 0#64) := by
  simp [execDestroy, hv, State.released]

theorem execSize_of_absent (hv : s.cfgValid = false) : execSize s = .next (s.raiseError .noArray) := by
  simp [execSize, hv]

theorem execSize_of_present (hv : s.cfgValid = true) :
    execSize s = .next (s.respond .ok (BitVec.ofNat 64 (s.wordCount * s.cfg.wordBytes))) := by
  simp [execSize, hv]

theorem runCommand_of_decode {w : CmdWord} {i : Instr} (hw : decode w = .ok i) : runCommand w s = exec i s := by
  rw [runCommand, hw]

theorem runCommand_of_illegal {w : CmdWord} {e : DecodeError} (hw : decode w = .error e) :
    runCommand w s = .next (s.raiseError .illegal) := by
  rw [runCommand, hw]

end Equations

/-! ## What a command that completes leaves -/

/-- Every way in which command word `w`, served in state `s`, can complete. -/
inductive Completes (w : CmdWord) (s : State) : State → Prop where
  /-- `raise Error(c)`. -/
  | error (c : Status) (hc : c ≠ .ok) : Completes w s (s.raiseError c)
  /-- An answer alone: GET, SIZE, and DESTROY with no array. -/
  | answer (data : RspData) : Completes w s (s.respond .ok data)
  /-- CREATE of an array that fits. -/
  | create (a : Index) (b : Value) (absent : s.cfgValid = false)
      (fits : wordcount s.cfg.wordBits a.toNat (bitwidth b) ≤ s.cfg.maxWords) :
      Completes w s ((s.created a b).respond .ok 0#64)
  /-- SET of an element of the array. -/
  | write (a : Index) (b : Value) (m : Mem) (present : s.cfgValid = true) (inRange : a < s.capacity)
      (written : writeElement s.cfg.wordBits s.wordCount s.storage a.toNat s.bitWidth.toNat
        (maskedValue s.cfg.wordBits s.bitWidth.toNat b) = .ok m) :
      Completes w s (State.respond { s with storage := m } .ok 0#64)
  /-- DESTROY of the array. -/
  | release (destroy : decode w = .ok .destroy) (present : s.cfgValid = true) :
      Completes w s (s.released.respond .ok 0#64)

/-- A command word completes in one of the ways of `Completes`. -/
theorem runCommand_completes {w : CmdWord} {s t : State} (h : runCommand w s = .next t) : Completes w s t := by
  rcases runCommand_cases w s with ⟨i, hi, e⟩ | ⟨_, _, e⟩
  case inr => cases e.symm.trans h; exact .error .illegal (by decide)
  replace h : exec i s = .next t := e.symm.trans h
  cases i with
  | create a b =>
    rcases execCreate_cases a b s with ⟨_, e⟩ | ⟨_, _, e⟩ | ⟨hv, hfit, e⟩ <;> cases e.symm.trans h
    · exact .error .inUse (by decide)
    · exact .error .allocFail (by decide)
    · exact .create a b hv hfit
  | set a b =>
    rcases execSet_cases a b s with ⟨_, e⟩ | ⟨_, _, e⟩ | ⟨hv, ha, ⟨m, hm, e⟩ | ⟨_, _, e⟩⟩ <;> cases e.symm.trans h
    · exact .error .noArray (by decide)
    · exact .error .outOfRange (by decide)
    · exact .write a b m hv ha hm
  | get a =>
    rcases execGet_cases a s with ⟨_, e⟩ | ⟨_, _, e⟩ | ⟨_, _, ⟨v, _, e⟩ | ⟨_, _, e⟩⟩ <;> cases e.symm.trans h
    · exact .error .noArray (by decide)
    · exact .error .outOfRange (by decide)
    · exact .answer _
  | destroy =>
    rcases execDestroy_cases s with ⟨_, e⟩ | ⟨hv, e⟩ <;> cases e.symm.trans h
    · exact .answer _
    · exact .release hi hv
  | size =>
    rcases execSize_cases s with ⟨_, e⟩ | ⟨_, e⟩ <;> cases e.symm.trans h
    · exact .error .noArray (by decide)
    · exact .answer _

/-! ## Edges and steps -/

/-- At an edge with `rst` 1 the machine resets (spec/70_reset_and_hazards.md R170). -/
theorem onEdge_of_rst {p : PortIn} {s : State} (hrst : p.rst = true) : onEdge p s = .next s.applyReset := if_pos hrst

/-- An edge accepts the offered command when no response waits (spec/30_encoding.md R67). -/
theorem onEdge_of_accept {p : PortIn} {s : State} (hrst : p.rst = false) (hcmd : p.cmdValid = true)
    (hrsp : s.rsp = none) : onEdge p s = runCommand p.cmdWord s := by
  simp [onEdge, State.cmdReady, hrst, hcmd, hrsp]

/-- An edge takes the response that waits when the host is ready for it (R67). -/
theorem onEdge_of_take {p : PortIn} {s : State} (hrst : p.rst = false) (hready : p.rspReady = true)
    (hrsp : s.rsp.isSome = true) : onEdge p s = .next { s with rsp := none } := by
  simp [onEdge, State.cmdReady, State.rspValid, hrst, hready, hrsp, ← Option.not_isSome]

/-- An edge at which nothing is accepted or taken changes nothing (R67). -/
theorem onEdge_of_idle {p : PortIn} {s : State} (hrst : p.rst = false) (hcmd : ¬(p.cmdValid = true ∧ s.rsp = none))
    (htake : ¬(p.rspReady = true ∧ s.rsp.isSome = true)) : onEdge p s = .next s := by
  rcases onEdge_cases p s with ⟨hrst', _⟩ | ⟨_, hcmd', hrsp, _⟩ | ⟨_, hready, hrsp, _⟩ | ⟨_, _, _, e⟩
  · simp [hrst] at hrst'
  · exact absurd ⟨hcmd', hrsp⟩ hcmd
  · exact absurd ⟨hready, hrsp⟩ htake
  · exact e

/-- An edge without reset that accepts no command changes the response alone (spec/30_encoding.md R67). -/
theorem onEdge_of_no_command {p : PortIn} {s t : State} (hrst : p.rst = false)
    (hno : p.cmdValid = false ∨ s.rsp.isSome = true) (h : onEdge p s = .next t) : t = { s with rsp := t.rsp } := by
  rcases onEdge_cases p s with ⟨hrst', _⟩ | ⟨_, hcmd, hrsp, _⟩ | ⟨_, _, _, e⟩ | ⟨_, _, _, e⟩
  · simp [hrst] at hrst'
  · simp [hcmd, hrsp] at hno
  · cases e.symm.trans h; rfl
  · cases e.symm.trans h; rfl

/-- All that a step which completes can be: no edge at all, or the next edge of the host's list. -/
theorem step_next_cases {s t : State} (h : step s = .next t) :
    (s.inputs = [] ∧ t = s) ∨
    ∃ p rest, s.inputs = p :: rest ∧ onEdge p { s with inputs := rest } = .next t := by
  cases hin : s.inputs with
  | nil => rw [step_nil hin] at h; cases h; exact .inl ⟨rfl, rfl⟩
  | cons p rest => rw [step_cons hin] at h; exact .inr ⟨p, rest, rfl, h⟩

end Sys2Proof.Machine
end

section
/-! Proofs of the state's statements (spec/10_state.md): the invariant (R29, R30), the configuration registers (R31),
`ERR_STICKY` (R26) and the reset values (R35). -/

namespace Sys2Proof.Machine

/-! ## The invariant -/

/-- The bit-width calculator answers 1 to 32 (spec/40_construction.md R80). -/
theorem bitwidth_bounds (b : Value) : 1 ≤ bitwidth b ∧ bitwidth b ≤ 32 := by
  unfold bitwidth
  split
  case isTrue => decide
  case isFalse hb =>
    have hne : b.toNat ≠ 0 := fun h => hb (BitVec.eq_of_toNat_eq h)
    have := (Nat.log2_lt hne).2 b.isLt
    omega

/-- `BIT_WIDTH` holds what the bit-width calculator answers (spec/10_state.md R24). -/
theorem toNat_ofNat_bitwidth (b : Value) : (BitVec.ofNat 6 (bitwidth b)).toNat = bitwidth b := by
  rw [BitVec.toNat_ofNat]
  exact Nat.mod_eq_of_lt (by have := bitwidth_bounds b; omega)

/-- The host's script is no part of the invariant. -/
theorem State.Inv.withInputs {s : State} (hs : s.Inv) (l : List PortIn) : ({ s with inputs := l } : State).Inv :=
  ⟨hs.legal, hs.canonical, hs.bounded, hs.stickyZero, hs.absent, hs.width, hs.count, hs.padding, hs.errorData⟩

/-- Any response may be offered whose data is 0 where it reports an error (R66, R151), or none. -/
theorem State.Inv.withRsp {s : State} (hs : s.Inv) {rsp : Option Response}
    (hrsp : ∀ r, rsp = some r → r.status ≠ .ok → r.data = 0#64) : ({ s with rsp := rsp } : State).Inv :=
  ⟨hs.legal, hs.canonical, hs.bounded, hs.stickyZero, hs.absent, hs.width, hs.count, hs.padding, hrsp⟩

theorem State.Inv.respond_ok {s : State} (hs : s.Inv) (data : RspData) : (s.respond .ok data).Inv :=
  hs.withRsp fun r hr hne => by cases hr; exact absurd rfl hne

theorem State.Inv.setSticky {s : State} (hs : s.Inv) (c : Status) : (s.setSticky c).Inv :=
  ⟨hs.legal, hs.canonical, hs.bounded, by simpa using hs.stickyZero, hs.absent, hs.width, hs.count, hs.padding,
    hs.errorData⟩

theorem State.Inv.raiseError {s : State} (hs : s.Inv) (c : Status) : (s.raiseError c).Inv :=
  (hs.setSticky c).withRsp fun r hr _ => by cases hr; rfl

/-- With the configuration registers 0 the invariant asks nothing of the storage bits (R30). -/
theorem State.Inv.released {s : State} (hs : s.Inv) : s.released.Inv where
  legal := hs.legal
  canonical := hs.canonical
  bounded := hs.bounded
  stickyZero := hs.stickyZero
  absent _ := ⟨rfl, rfl, rfl⟩
  width := nofun
  count := nofun
  padding := nofun
  errorData := hs.errorData

/-- A reset releases the array, clears `ERR_STICKY` and drops the response (R35). -/
theorem State.Inv.applyReset {s : State} (hs : s.Inv) : s.applyReset.Inv :=
  { hs.released.withRsp (rsp := none) nofun with stickyZero := by simp }

/-- CREATE of an array that fits: the zero fill clears the padding with everything else (R29, spec/20_memory.md R43). -/
theorem State.Inv.created {s : State} (hs : s.Inv) {a : Index} {b : Value}
    (hfit : wordcount s.cfg.wordBits a.toNat (bitwidth b) ≤ s.cfg.maxWords) : (s.created a b).Inv where
  legal := hs.legal
  canonical := Mem.zeroFill_wf hs.canonical _ _
  bounded c hc := hs.bounded c (List.mem_filter.1 hc).1
  stickyZero := hs.stickyZero
  absent := nofun
  width _ := by
    change 1 ≤ (BitVec.ofNat 6 (bitwidth b)).toNat ∧ (BitVec.ofNat 6 (bitwidth b)).toNat ≤ 32
    rw [toNat_ofNat_bitwidth]
    exact bitwidth_bounds b
  count _ := by
    change wordcount s.cfg.wordBits a.toNat (bitwidth b) =
      wordcount s.cfg.wordBits a.toNat (BitVec.ofNat 6 (bitwidth b)).toNat ∧ _
    rw [toNat_ofNat_bitwidth]
    exact ⟨rfl, hfit⟩
  padding _ x _ hx :=
    (bitAt_zeroFill s.cfg.eight_dvd_wordBits s.cfg.wordBits_pos _ _ x).trans (if_pos hx)
  errorData := hs.errorData

/-- SET of an element of the array: the element ends below the padding, and its write changes no bit but its own
(spec/20_memory.md R43, spec/41_write.md R104). -/
theorem State.Inv.written {s : State} (hs : s.Inv) {a : Index} {b : Value} {m : Mem} (hv : s.cfgValid = true)
    (ha : a < s.capacity)
    (hm : writeElement s.cfg.wordBits s.wordCount s.storage a.toNat s.bitWidth.toNat
      (maskedValue s.cfg.wordBits s.bitWidth.toNat b) = .ok m) : ({ s with storage := m } : State).Inv where
  legal := hs.legal
  canonical := writeElement_wf hs.canonical hm
  bounded := Mem.Within.writeElement hs.bounded (hs.count hv).2 hm
  stickyZero := hs.stickyZero
  absent := hs.absent
  width := hs.width
  count := hs.count
  padding _ x hx hlive := by
    have hwide := s.cfg.wordBits_ge
    have hw : s.bitWidth.toNat ≤ s.cfg.wordBits := (hs.width hv).2.trans hwide
    have hmask : (maskedValue s.cfg.wordBits s.bitWidth.toNat b).toNat < 2 ^ s.bitWidth.toNat := by
      rw [toNat_maskedValue hwide]
      exact Nat.mod_lt _ (by positivity)
    have hend : a.toNat * s.bitWidth.toNat + s.bitWidth.toNat ≤ x := calc
      _ = (a.toNat + 1) * s.bitWidth.toNat := (Nat.succ_mul _ _).symm
      _ ≤ s.capacity.toNat * s.bitWidth.toNat := Nat.mul_le_mul_right _ ha
      _ ≤ x := hx
    have hsame := bitAt_writeElement s.cfg.eight_dvd_wordBits s.cfg.wordBits_pos hs.canonical hw hmask hm x
    rw [if_neg (by omega)] at hsame
    exact hsame.trans (hs.padding hv x hx hlive)
  errorData := hs.errorData

/-- A command word that completes keeps the invariant. -/
theorem runCommand_inv {w : CmdWord} {s t : State} (hs : s.Inv) (h : runCommand w s = .next t) : t.Inv := by
  cases runCommand_completes h with
  | error c _ => exact hs.raiseError c
  | answer data => exact hs.respond_ok data
  | create a b _ hfit => exact (hs.created hfit).respond_ok _
  | write a b m hv ha hm => exact (hs.written hv ha hm).respond_ok _
  | release _ _ => exact hs.released.respond_ok _

/-- An edge keeps the invariant. -/
theorem onEdge_inv {p : PortIn} {s t : State} (hs : s.Inv) (h : onEdge p s = .next t) : t.Inv := by
  rcases onEdge_cases p s with ⟨_, e⟩ | ⟨_, _, _, e⟩ | ⟨_, _, _, e⟩ | ⟨_, _, _, e⟩ <;> rw [e] at h
  case inr.inl => exact runCommand_inv hs h
  all_goals cases h
  · exact hs.applyReset
  · exact hs.withRsp nofun
  · exact hs

/-- Settles O15: an edge keeps the invariant whatever it does (`onEdge_inv`), and so does no edge at all. -/
theorem stepKeepsTheInvariant : Obligations.StepKeepsTheInvariant := by
  intro s t hs h
  rcases step_next_cases h with ⟨_, rfl⟩ | ⟨p, rest, _, hedge⟩
  · exact hs
  · exact onEdge_inv (hs.withInputs rest) hedge

/-- The reset state of every legal configuration meets the invariant (R35). -/
theorem State.inv_resetWith {c : Config} (hc : c.legal) : (State.resetWith c).Inv where
  legal := hc
  canonical := Mem.wf_nil
  bounded := nofun
  stickyZero := by simp
  absent _ := ⟨rfl, rfl, rfl⟩
  width := nofun
  count := nofun
  padding := nofun
  errorData := nofun

/-- Settles O14, by `State.inv_resetWith`; `Config.reference` is legal (log entry 1). -/
theorem resetMeetsTheInvariant : Obligations.ResetMeetsTheInvariant :=
  ⟨fun _ => State.inv_resetWith, State.inv_resetWith (c := Config.reference) (by decide)⟩

/-- At most `MAX_WORDS` words are live, with an array or without (R25, R29, R30). -/
theorem State.Inv.wordCount_le {s : State} (hs : s.Inv) : s.wordCount ≤ s.cfg.maxWords := by
  cases hv : s.cfgValid with
  | false => obtain ⟨_, _, hzero⟩ := hs.absent hv; omega
  | true => exact (hs.count hv).2

/-- Settles O18: `MAX_WORDS + 1` is at most 2 to the power of its ceiling logarithm. -/
theorem wordCountFitsItsRegister : Obligations.WordCountFitsItsRegister := by
  intro s hs
  have hpow : s.cfg.maxWords + 1 ≤ 2 ^ s.cfg.wordCountBits := Nat.le_pow_clog (by decide) _
  exact (Nat.lt_succ_of_le hs.wordCount_le).trans_le hpow

/-- Settles O11: the values of `State.resetWith`, field by field. -/
theorem resetValues : Obligations.ResetValues := by
  refine ⟨fun c => ⟨rfl, rfl, rfl, rfl, rfl, rfl⟩, Config.reference.maxWords, State.reset_eq, ?_⟩
  decide

/-! ## The configuration registers -/

/-- The configuration registers of R22 to R25 hold the same in `s` and `t`. -/
structure State.SameConfiguration (s t : State) : Prop where
  cfgValid : t.cfgValid = s.cfgValid
  capacity : t.capacity = s.capacity
  bitWidth : t.bitWidth = s.bitWidth
  wordCount : t.wordCount = s.wordCount

/-- With an array present only DESTROY changes the configuration registers (R31). -/
theorem runCommand_sameConfiguration {w : CmdWord} {s t : State} (hv : s.cfgValid = true)
    (hw : decode w ≠ .ok .destroy) (h : runCommand w s = .next t) : s.SameConfiguration t := by
  cases runCommand_completes h with
  | error c _ => exact ⟨rfl, rfl, rfl, rfl⟩
  | answer data => exact ⟨rfl, rfl, rfl, rfl⟩
  | create a b absent _ => simp [hv] at absent
  | write a b m _ _ _ => exact ⟨rfl, rfl, rfl, rfl⟩
  | release destroy _ => exact absurd destroy hw

/-- Settles O50: the words by `runCommand_sameConfiguration`, the other edges by `onEdge_of_no_command`. -/
theorem configurationIsImmutable : Obligations.ConfigurationIsImmutable := by
  refine ⟨fun w s t hv hw h => ?_, fun s t p rest hin hrst hno h => ?_⟩
  · obtain ⟨hvalid, hcap, hwidth, hcount⟩ := runCommand_sameConfiguration hv hw h
    exact ⟨hvalid.trans hv, hcap, hwidth, hcount⟩
  · rw [step_cons hin] at h
    rw [onEdge_of_no_command (s := { s with inputs := rest }) hrst hno h]
    exact ⟨rfl, rfl, rfl, rfl⟩

/-! ## The sticky error register -/

/-- The port shows every bit of `ERR_STICKY` but bit 0 (R26). -/
theorem State.getLsbD_errStickyPort (s : State) (j : Nat) :
    s.errStickyPort.getLsbD j = (decide (j ≠ 0) && s.errSticky.getLsbD j) := by
  have hmask : (0b111110#6).getLsbD j = (decide (j ≠ 0) && decide (j < 6)) := by
    by_cases hj : j < 6
    · interval_cases j <;> rfl
    · simp [hj, BitVec.getLsbD_of_ge _ j (Nat.le_of_not_lt hj)]
  rw [State.errStickyPort, BitVec.getLsbD_and, hmask]
  by_cases hj : j < 6
  · simp [hj, Bool.and_comm]
  · simp [BitVec.getLsbD_of_ge s.errSticky j (by omega)]

theorem State.errStickyPort_congr {s t : State} (h : t.errSticky = s.errSticky) :
    t.errStickyPort = s.errStickyPort := by
  rw [State.errStickyPort, h, State.errStickyPort]

/-- Reset clears the register (R26, R35). -/
theorem State.errStickyPort_applyReset (s : State) : s.applyReset.errStickyPort = 0#6 := by
  rw [State.errStickyPort, State.applyReset_errSticky, BitVec.zero_and]

/-- No error status has code 0 (spec/60_exceptions.md R150). -/
theorem Status.code_ne_zero {c : Status} (hc : c ≠ .ok) : c.code.toNat ≠ 0 := by
  cases c with
  | ok => exact absurd rfl hc
  | _ => decide

/-- `raise Error(c)` sets bit `c` at the port and changes no other (R26). -/
theorem State.getLsbD_errStickyPort_raiseError (s : State) {c : Status} (hc : c ≠ .ok) (j : Nat) :
    (s.raiseError c).errStickyPort.getLsbD j = (s.errStickyPort.getLsbD j || decide (j = c.code.toNat)) := by
  rw [State.getLsbD_errStickyPort, State.getLsbD_errStickyPort, State.raiseError_errSticky, BitVec.getLsbD_or,
    Status.stickyBit_getLsbD c hc]
  by_cases hj : j = 0
  · simp [hj, (Status.code_ne_zero hc).symm]
  · simp [hj]

/-- What a command word that completes does to the port `err_sticky`, told by its response's status (R26). -/
theorem runCommand_errStickyPort {w : CmdWord} {s t : State} {r : Response} (h : runCommand w s = .next t)
    (hr : t.rsp = some r) (j : Nat) :
    t.errStickyPort.getLsbD j =
      (s.errStickyPort.getLsbD j || decide (r.status ≠ .ok ∧ j = r.status.code.toNat)) := by
  rcases runCommand_next_cases h with ⟨c, hc, rfl⟩ | hok
  · cases hr
    rw [s.getLsbD_errStickyPort_raiseError hc]
    simp [hc]
  · obtain ⟨data, hdata⟩ := hok.rsp
    cases hdata.symm.trans hr
    rw [State.errStickyPort_congr hok.errSticky]
    simp

/-- No command clears a bit of the port (R26). -/
theorem runCommand_keeps_sticky {w : CmdWord} {s t : State} (h : runCommand w s = .next t) {j : Nat}
    (hj : s.errStickyPort.getLsbD j = true) : t.errStickyPort.getLsbD j = true := by
  rcases runCommand_next_cases h with ⟨c, hc, rfl⟩ | hok
  · rw [s.getLsbD_errStickyPort_raiseError hc, hj, Bool.true_or]
  · rwa [State.errStickyPort_congr hok.errSticky]

/-- An edge without reset clears no bit of the port (R26). -/
theorem onEdge_keeps_sticky {p : PortIn} {s t : State} (hrst : p.rst = false) (h : onEdge p s = .next t) {j : Nat}
    (hj : s.errStickyPort.getLsbD j = true) : t.errStickyPort.getLsbD j = true := by
  rcases onEdge_cases p s with ⟨hrst', _⟩ | ⟨_, _, _, e⟩ | ⟨_, _, _, e⟩ | ⟨_, _, _, e⟩
  · simp [hrst] at hrst'
  · exact runCommand_keeps_sticky (e.symm.trans h) hj
  · cases e.symm.trans h; exact hj
  · cases e.symm.trans h; exact hj

/-- Settles O47: the port's bits after a word (`runCommand_errStickyPort`), after an edge without reset
(`onEdge_keeps_sticky`, `onEdge_of_no_command`) and after a reset. -/
theorem stickyBitsStayUntilReset : Obligations.StickyBitsStayUntilReset := by
  refine ⟨fun s => s.getLsbD_errStickyPort 0, fun w s t r h hr => ?_, State.errStickyPort_applyReset,
    fun s t hrst h => ?_, fun s p rest hin hrst => ?_⟩
  · have hport := runCommand_errStickyPort h hr
    refine ⟨fun hne => ?_, fun j hj => ?_, fun j hclear hset => ?_⟩
    · simp [hport, hne]
    · simp [hport, hj]
    · simpa [hport, hclear] using hset
  · rcases step_next_cases h with ⟨_, rfl⟩ | ⟨p, rest, hin, hedge⟩
    · exact ⟨fun _ hj => hj, fun _ => rfl⟩
    · have hhead : s.inputs.head? = some p := by rw [hin, List.head?_cons]
      refine ⟨fun _ hj => onEdge_keeps_sticky (hrst p hhead) hedge hj, fun hno => ?_⟩
      rw [onEdge_of_no_command (s := { s with inputs := rest }) (hrst p hhead) (hno p hhead) hedge]
  · exact ⟨_, (step_cons hin).trans (onEdge_of_rst hrst), State.errStickyPort_applyReset _⟩

end Sys2Proof.Machine
end

section
/-! Storage outside the live words is never observable (spec/10_state.md R27, R34, R35). Two states of `State.SameLive`
differ in their storage alone, so each lemma runs a state `s` and the state `{ s with storage := m }` side by side, for
memories that agree on the live words. -/

namespace Sys2Proof.Machine

/-! ## Memories that agree on the live words -/

/-- Two memories in canonical form that hold the same words below word `n`. -/
structure Mem.AgreeBelow (W n : Nat) (m m' : Mem) : Prop where
  wf : m.wf
  wf' : m'.wf
  bits : ∀ b, b < n * W → bitAt W m b = bitAt W m' b

/-- A bit of a storage word, as a bit of the stream (spec/20_memory.md R40). -/
theorem getLsbD_readWord_eq_bitAt {W j : Nat} (hj : j < W) (m : Mem) (k : Nat) :
    (m.readWord W k).getLsbD j = bitAt W m (k * W + j) := by
  rw [bitAt, Nat.mul_comm, Nat.mul_add_div (by omega), Nat.div_eq_of_lt hj, Nat.mul_add_mod, Nat.mod_eq_of_lt hj,
    Nat.add_zero]

theorem Mem.AgreeBelow.readWord {W n k : Nat} {m m' : Mem} (h : Mem.AgreeBelow W n m m') (hk : k < n) :
    m.readWord W k = m'.readWord W k := by
  refine BitVec.eq_of_getLsbD_eq fun j hj => ?_
  have hlive : (k + 1) * W ≤ n * W := Nat.mul_le_mul_right _ hk
  rw [Nat.succ_mul] at hlive
  rw [getLsbD_readWord_eq_bitAt hj, getLsbD_readWord_eq_bitAt hj]
  exact h.bits _ (by omega)

theorem Mem.AgreeBelow.writeWord {W n : Nat} {m m' : Mem} (h : Mem.AgreeBelow W n m m') (hW : 8 ∣ W) (k : Nat)
    (v : StorageWord W) : Mem.AgreeBelow W n (m.writeWord W k v) (m'.writeWord W k v) where
  wf := Mem.writeWord_wf h.wf _ _ _
  wf' := Mem.writeWord_wf h.wf' _ _ _
  bits b hb := by rw [bitAt_writeWord hW h.wf, bitAt_writeWord hW h.wf', h.bits b hb]

/-- Whatever two memories held, they agree on the words that both were zero-filled in (spec/40_construction.md R84). -/
theorem Mem.AgreeBelow.of_zeroFill {W : Nat} {m m' : Mem} (hW : 8 ∣ W) (hpos : 0 < W) (hm : m.wf) (hm' : m'.wf)
    (n : Nat) : Mem.AgreeBelow W n (m.zeroFill W n) (m'.zeroFill W n) where
  wf := Mem.zeroFill_wf hm _ _
  wf' := Mem.zeroFill_wf hm' _ _
  bits b hb := by rw [bitAt_zeroFill hW hpos, bitAt_zeroFill hW hpos, if_pos hb, if_pos hb]

/-- With no word live, canonical memories agree. -/
theorem Mem.AgreeBelow.of_wf {W : Nat} {m m' : Mem} (hm : m.wf) (hm' : m'.wf) : Mem.AgreeBelow W 0 m m' :=
  ⟨hm, hm', fun b hb => absurd hb (by omega)⟩

/-- The element reader reads live words alone. -/
theorem Mem.AgreeBelow.readElement {W n i w : Nat} {m m' : Mem} {v : StorageWord W} (h : Mem.AgreeBelow W n m m')
    (e : readElement W n m i w = .ok v) : readElement W n m' i w = .ok v := by
  rcases readElement_cases W n m i w with ⟨hlive, hs, e'⟩ | ⟨hlive, hs, e'⟩ | ⟨_, e'⟩ <;> cases e'.symm.trans e
  · rw [readElement_of_single hlive hs, h.readWord hlive]
  · rw [readElement_of_split hlive hs, h.readWord hlive, h.readWord (by omega)]

/-- The element writer reads and writes live words alone. -/
theorem Mem.AgreeBelow.writeElement {W n i w : Nat} {m m' m₁ : Mem} {v : StorageWord W} (h : Mem.AgreeBelow W n m m')
    (hW : 8 ∣ W) (e : writeElement W n m i w v = .ok m₁) :
    ∃ m₁', writeElement W n m' i w v = .ok m₁' ∧ Mem.AgreeBelow W n m₁ m₁' := by
  rcases writeElement_cases W n m i w v with ⟨hlive, hs, e'⟩ | ⟨hlive, hs, e'⟩ | ⟨_, e'⟩ <;> cases e'.symm.trans e
  · refine ⟨_, writeElement_of_single hlive hs m' v, ?_⟩
    rw [h.readWord hlive]
    exact h.writeWord hW _ _
  · refine ⟨_, writeElement_of_split hlive hs m' v, ?_⟩
    rw [h.readWord hlive, h.readWord (k := (decodeAddr W i w).wordIndex) (by omega)]
    exact (h.writeWord hW _ _).writeWord hW _ _

/-! ## Two runs side by side -/

/-- `m` is in canonical form, as the storage of `s` is, and holds the same live words. -/
def State.LiveStorage (s : State) (m : Mem) : Prop := Mem.AgreeBelow s.cfg.wordBits s.wordCount s.storage m

/-- States that differ at most in words that are not live differ in their storage alone. -/
theorem State.SameLive.eq_with_storage {s t : State} (h : s.SameLive t) : t = { s with storage := t.storage } := by
  obtain ⟨hcfg, hvalid, hcap, hwidth, hcount, hsticky, hrsp, hinputs, _⟩ := h
  rw [hcfg, hvalid, hcap, hwidth, hcount, hsticky, hrsp, hinputs]

theorem State.SameLive.liveStorage {s t : State} (h : s.SameLive t) (hs : s.storage.wf) (ht : t.storage.wf) :
    s.LiveStorage t.storage :=
  ⟨hs, ht, fun b hb => (h.live b hb).trans (by rw [State.bitAt, h.cfg])⟩

theorem State.LiveStorage.sameLive {s : State} {m : Mem} (h : s.LiveStorage m) :
    s.SameLive { s with storage := m } :=
  ⟨rfl, rfl, rfl, rfl, rfl, rfl, rfl, rfl, h.bits⟩

/-- Run on `s` with storage `m`, the machine completes in `s'` but for storage words that are not live. -/
def SameCompletion (run : State → Host.Outcome State Fault Refusal) (s : State) (m : Mem) (s' : State) : Prop :=
  ∃ m', run { s with storage := m } = .next { s' with storage := m' } ∧ s'.LiveStorage m'

theorem execCreate_sameCompletion {a : Index} {b : Value} {s s' : State} {m : Mem} (h : s.LiveStorage m)
    (e : execCreate a b s = .next s') : SameCompletion (execCreate a b) s m s' := by
  rcases execCreate_cases a b s with ⟨hv, e'⟩ | ⟨hv, hw, e'⟩ | ⟨hv, hw, e'⟩ <;> cases e'.symm.trans e
  · exact ⟨m, execCreate_of_present hv, h⟩
  · exact ⟨m, execCreate_of_too_large hv hw, h⟩
  · exact ⟨_, execCreate_of_fits hv hw,
      Mem.AgreeBelow.of_zeroFill s.cfg.eight_dvd_wordBits s.cfg.wordBits_pos h.wf h.wf' _⟩

theorem execSet_sameCompletion {a : Index} {b : Value} {s s' : State} {m : Mem} (h : s.LiveStorage m)
    (e : execSet a b s = .next s') : SameCompletion (execSet a b) s m s' := by
  rcases execSet_cases a b s with ⟨hv, e'⟩ | ⟨hv, ha, e'⟩ | ⟨hv, ha, ⟨m₁, hm, e'⟩ | ⟨_, _, e'⟩⟩ <;>
    cases e'.symm.trans e
  · exact ⟨m, execSet_of_absent hv, h⟩
  · exact ⟨m, execSet_of_out_of_range hv ha, h⟩
  · obtain ⟨m₁', hm', hagree⟩ := Mem.AgreeBelow.writeElement h s.cfg.eight_dvd_wordBits hm
    exact ⟨m₁', execSet_of_written hv ha hm', hagree⟩

theorem execGet_sameCompletion {a : Index} {s s' : State} {m : Mem} (h : s.LiveStorage m)
    (e : execGet a s = .next s') : SameCompletion (execGet a) s m s' := by
  rcases execGet_cases a s with ⟨hv, e'⟩ | ⟨hv, ha, e'⟩ | ⟨hv, ha, ⟨v, hr, e'⟩ | ⟨_, _, e'⟩⟩ <;>
    cases e'.symm.trans e
  · exact ⟨m, execGet_of_absent hv, h⟩
  · exact ⟨m, execGet_of_out_of_range hv ha, h⟩
  · exact ⟨m, execGet_of_read hv ha (Mem.AgreeBelow.readElement h hr), h⟩

theorem execDestroy_sameCompletion {s s' : State} {m : Mem} (h : s.LiveStorage m)
    (e : execDestroy s = .next s') : SameCompletion execDestroy s m s' := by
  rcases execDestroy_cases s with ⟨hv, e'⟩ | ⟨hv, e'⟩ <;> cases e'.symm.trans e
  · exact ⟨m, execDestroy_of_absent hv, h⟩
  · exact ⟨m, execDestroy_of_present hv, .of_wf h.wf h.wf'⟩

theorem execSize_sameCompletion {s s' : State} {m : Mem} (h : s.LiveStorage m)
    (e : execSize s = .next s') : SameCompletion execSize s m s' := by
  rcases execSize_cases s with ⟨hv, e'⟩ | ⟨hv, e'⟩ <;> cases e'.symm.trans e
  · exact ⟨m, execSize_of_absent hv, h⟩
  · exact ⟨m, execSize_of_present hv, h⟩

/-- A command word sees and changes live words alone, whichever command it is. -/
theorem runCommand_sameCompletion {w : CmdWord} {s s' : State} {m : Mem} (h : s.LiveStorage m)
    (e : runCommand w s = .next s') : SameCompletion (runCommand w) s m s' := by
  cases hw : decode w with
  | error _ =>
    cases (runCommand_of_illegal hw).symm.trans e
    exact ⟨m, runCommand_of_illegal hw, h⟩
  | ok i =>
    replace e : exec i s = .next s' := (runCommand_of_decode hw).symm.trans e
    rw [SameCompletion, runCommand_of_decode hw]
    cases i with
    | create a b => exact execCreate_sameCompletion h e
    | set a b => exact execSet_sameCompletion h e
    | get a => exact execGet_sameCompletion h e
    | destroy => exact execDestroy_sameCompletion h e
    | size => exact execSize_sameCompletion h e

/-- An edge sees and changes live words alone; after a reset no word is live. -/
theorem onEdge_sameCompletion {p : PortIn} {s s' : State} {m : Mem} (h : s.LiveStorage m)
    (e : onEdge p s = .next s') : SameCompletion (onEdge p) s m s' := by
  rcases onEdge_cases p s with ⟨hrst, e'⟩ | ⟨hrst, hcmd, hrsp, e'⟩ | ⟨hrst, hready, hrsp, e'⟩ | ⟨hrst, hcmd, htake, e'⟩
  · cases e'.symm.trans e
    exact ⟨m, onEdge_of_rst hrst, .of_wf h.wf h.wf'⟩
  · obtain ⟨m', hrun, hlive⟩ := runCommand_sameCompletion h (e'.symm.trans e)
    exact ⟨m', (onEdge_of_accept (s := { s with storage := m }) hrst hcmd hrsp).trans hrun, hlive⟩
  · cases e'.symm.trans e
    exact ⟨m, onEdge_of_take hrst hready hrsp, h⟩
  · cases e'.symm.trans e
    exact ⟨m, onEdge_of_idle hrst hcmd htake, h⟩

/-- A step sees and changes live words alone. -/
theorem step_sameCompletion {s s' : State} {m : Mem} (h : s.LiveStorage m) (e : step s = .next s') :
    SameCompletion step s m s' := by
  rcases step_next_cases e with ⟨hin, rfl⟩ | ⟨p, rest, hin, hedge⟩
  · exact ⟨m, step_nil hin, h⟩
  · rw [SameCompletion, step_cons (s := { s with storage := m }) hin]
    exact onEdge_sameCompletion (s := { s with inputs := rest }) h hedge

/-- Settles O54: states of `State.SameLive` differ in their storage alone, and there `step_sameCompletion` says it. -/
theorem deadStorageIsUnobservable : Obligations.DeadStorageIsUnobservable := by
  intro s t s' hsame hs ht h
  obtain ⟨m', hstep, hlive⟩ := step_sameCompletion (hsame.liveStorage hs ht) h
  exact ⟨_, (congrArg step hsame.eq_with_storage).trans hstep, hlive.sameLive, hlive.wf, hlive.wf'⟩

end Sys2Proof.Machine
end

section
/-! Proofs of the memory's statements (spec/20_memory.md): the spans of the elements in the live words (R42, R43), what a
SET within the array leaves (R41, R49), the byte view (R46), and the two commands that only read (R49). -/

namespace Sys2Proof.Machine

/-! ## Spans and padding -/

/-- The one span of width `w` that bit address `b` lies in is that of index `b / w` (R42). -/
theorem mem_span_iff {w : Nat} (hw : 0 < w) (i b : Nat) : i * w ≤ b ∧ b < i * w + w ↔ i = b / w := by
  rw [← Nat.succ_mul, ← Nat.le_div_iff_mul_le hw, ← Nat.div_lt_iff_lt_mul hw]
  omega

/-- The span of an index below `n` ends within the `n * w` bits of the array (R42). -/
theorem span_end_le {i n : Nat} (hi : i < n) (w : Nat) : i * w + w ≤ n * w := by
  rw [← Nat.succ_mul]
  exact Nat.mul_le_mul_right w hi

/-- The live words hold the array's bits, and less than one word more (spec/10_state.md R29). -/
theorem State.Inv.live_bounds {s : State} (hs : s.Inv) (hv : s.cfgValid = true) :
    s.capacity.toNat * s.bitWidth.toNat ≤ s.wordCount * s.cfg.wordBits ∧
      s.wordCount * s.cfg.wordBits < s.capacity.toNat * s.bitWidth.toNat + s.cfg.wordBits := by
  obtain ⟨hcount, _⟩ := hs.count hv
  rw [hcount]
  exact wordcount_bounds s.cfg.wordBits_pos _ _

/-- The span of an index below `CAPACITY` ends within the live words (R42). -/
theorem State.Inv.span_end_le_live {s : State} (hs : s.Inv) (hv : s.cfgValid = true) {i : Nat}
    (hi : i < s.capacity.toNat) :
    i * s.bitWidth.toNat + s.bitWidth.toNat ≤ s.wordCount * s.cfg.wordBits :=
  (span_end_le hi _).trans (hs.live_bounds hv).1

/-- Settles O52: `State.Inv.span_end_le_live` for the first clause; in the second the one index is `b / BIT_WIDTH`
(`mem_span_iff`). -/
theorem spansTileTheArray : Obligations.SpansTileTheArray := by
  intro s hs hv
  obtain ⟨hw, _⟩ := hs.width hv
  refine ⟨fun i b hi _ hb => hb.trans_le (hs.span_end_le_live hv hi), fun b hb => ?_⟩
  refine ⟨b / s.bitWidth.toNat, ⟨?_, (mem_span_iff hw _ b).2 rfl⟩, ?unique⟩
  case unique => exact fun i ⟨_, hspan⟩ => (mem_span_iff hw i b).1 hspan
  rwa [Nat.div_lt_iff_lt_mul hw]

/-- Settles O53: `State.Inv.live_bounds` leaves the padding less than one word, and the invariant, which every word keeps
(`runCommand_inv`), says that its bits are 0. -/
theorem paddingBitsStayZero : Obligations.PaddingBitsStayZero := by
  refine ⟨fun s hs hv => ?_, fun w s t hs h hv => (runCommand_inv hs h).padding hv⟩
  obtain ⟨_, hshort⟩ := hs.live_bounds hv
  have hpos := s.cfg.wordBits_pos
  refine ⟨by omega, fun b hb hlive => ⟨?_, hs.padding hv b hb hlive⟩⟩
  have hlow : b / s.cfg.wordBits < s.wordCount := (Nat.div_lt_iff_lt_mul hpos).2 hlive
  have hhigh : s.wordCount < b / s.cfg.wordBits + 2 := by
    have hword : b < b / s.cfg.wordBits * s.cfg.wordBits + s.cfg.wordBits := Nat.lt_div_mul_add hpos
    refine Nat.lt_of_mul_lt_mul_right (a := s.cfg.wordBits) ?_
    rw [Nat.add_mul]
    omega
  omega

/-! ## SET within the array -/

/-- Every word of an element is live whose span ends within the live words (spec/41_write.md R101). -/
theorem not_elementNotLive_of_span_end_le {W wc i w : Nat} (hpos : 0 < W) (hw : 0 < w) (hend : i * w + w ≤ wc * W) :
    ¬ ElementNotLive W wc i w := by
  obtain ⟨_, hstart, _, hsplit, _, _⟩ := decodeAddr_spec hpos i w
  have hfirst : (decodeAddr W i w).wordIndex < wc := Nat.lt_of_mul_lt_mul_right (a := W) (by omega)
  cases hs : (decodeAddr W i w).split with
  | false => exact not_elementNotLive_of_single hfirst hs
  | true =>
    have hspan : W < (decodeAddr W i w).bitOffset + w := hsplit.1 hs
    have hsecond : (decodeAddr W i w).wordIndex + 1 < wc := by
      refine Nat.lt_of_mul_lt_mul_right (a := W) ?_
      rw [Nat.succ_mul]
      omega
    exact not_elementNotLive_of_split hsecond

/-- In a state of the invariant every element below `CAPACITY` has its words live (spec/41_write.md R101). -/
theorem State.Inv.not_elementNotLive {s : State} (hs : s.Inv) (hv : s.cfgValid = true) {i : Nat}
    (hi : i < s.capacity.toNat) : ¬ ElementNotLive s.cfg.wordBits s.wordCount i s.bitWidth.toNat :=
  not_elementNotLive_of_span_end_le s.cfg.wordBits_pos (hs.width hv).1 (hs.span_end_le_live hv hi)

/-- What SET of `b` at an index `a` of the array makes of state `s`: an `OK` answer, and in storage the bits of `b` in the
element's span alone (R41, spec/41_write.md R104, R106). -/
structure State.ElementSet (s : State) (a : Index) (b : Value) (t : State) : Prop where
  inv : t.Inv
  eq : t = { s with storage := t.storage, rsp := some { status := .ok, data := 0#64 } }
  bits : ∀ x, t.bitAt x =
    if a.toNat * s.bitWidth.toNat ≤ x ∧ x < a.toNat * s.bitWidth.toNat + s.bitWidth.toNat
    then b.getLsbD (x - a.toNat * s.bitWidth.toNat) else s.bitAt x

/-- The masked value operand is below `2^w` (spec/41_write.md R107). -/
theorem maskedValue_lt {W : Nat} (hW : 32 ≤ W) (w : Nat) (b : Value) : (maskedValue W w b).toNat < 2 ^ w := by
  rw [toNat_maskedValue hW]
  exact Nat.mod_lt _ (by positivity)

/-- From a state of the invariant SET within the array completes, with the effect `State.ElementSet`. -/
theorem State.Inv.exec_set {s : State} (hs : s.Inv) (hv : s.cfgValid = true) {a : Index} (ha : a < s.capacity)
    (b : Value) : ∃ t, exec (.set a b) s = .next t ∧ s.ElementSet a b t := by
  rcases execSet_cases a b s with ⟨hnv, _⟩ | ⟨_, hge, _⟩ | ⟨_, _, ⟨m, hm, e⟩ | ⟨f, herr, _⟩⟩
  · simp [hv] at hnv
  · exact absurd ha (BitVec.not_lt.2 hge)
  · refine ⟨_, e, (hs.written hv ha hm).respond_ok _, rfl, fun x => ?_⟩
    have hwide := s.cfg.wordBits_ge
    have hw : s.bitWidth.toNat ≤ s.cfg.wordBits := (hs.width hv).2.trans hwide
    refine (bitAt_writeElement s.cfg.eight_dvd_wordBits s.cfg.wordBits_pos hs.canonical hw
      (maskedValue_lt hwide _ b) hm x).trans ?_
    split
    next hin =>
      have hlow : x - a.toNat * s.bitWidth.toNat < s.bitWidth.toNat := by omega
      simp [getLsbD_maskedValue hwide, hlow]
    next => rfl
  · exact absurd ((writeElement_eq_error_iff _ _ _ _ _ _ f).1 herr) (hs.not_elementNotLive hv ha)

/-- Settles O35: the bits of `State.ElementSet` within the span. -/
theorem setStoresBitsInStreamOrder : Obligations.SetStoresBitsInStreamOrder := by
  intro s a b hs hv ha
  obtain ⟨t, hset, ht⟩ := hs.exec_set hv ha b
  refine ⟨t, hset, fun x hx => ?_⟩
  rw [ht.bits, if_pos (by omega), Nat.add_sub_cancel_left]

/-- SET of a value that the element holds already leaves a state with an `OK` answer as it is: its storage has the same
bits, so it is the same data (`Mem.eq_of_bitAt_eq`). -/
theorem State.ElementSet.repeated {s t u : State} {a : Index} {b : Value} (ht : s.ElementSet a b t)
    (hu : t.ElementSet a b u) : u = t := by
  have hwidth : t.bitWidth = s.bitWidth := by rw [ht.eq]
  have hrsp : t.rsp = some { status := .ok, data := 0#64 } := by rw [ht.eq]
  have hcfg : u.cfg = t.cfg := by rw [hu.eq]
  have hbits : ∀ x, u.bitAt x = t.bitAt x := fun x => by
    rw [hu.bits, ht.bits, hwidth]
    split <;> rfl
  have hstorage : u.storage = t.storage := by
    refine Mem.eq_of_bitAt_eq t.cfg.eight_dvd_wordBits t.cfg.wordBits_pos hu.inv.canonical ht.inv.canonical ?_
    intro x
    have hx := hbits x
    rwa [State.bitAt, State.bitAt, hcfg] at hx
  rw [hu.eq, hstorage, ← hrsp]

/-- Settles O38: the second SET has the effect `State.ElementSet` on the first one's state, which holds the value already
(`State.ElementSet.repeated`). -/
theorem setIsIdempotent : Obligations.SetIsIdempotent := by
  intro s a b hs hv ha
  obtain ⟨t, hset, ht⟩ := hs.exec_set hv ha b
  have hv' : t.cfgValid = true := by rw [ht.eq]; exact hv
  have ha' : a < t.capacity := by rw [ht.eq]; exact ha
  obtain ⟨u, hset', hu⟩ := ht.inv.exec_set hv' ha' b
  exact ⟨t, hset, ht.repeated hu ▸ hset'⟩

/-! ## The byte view -/

/-- Byte `n` of a storage word (R46). -/
theorem Mem.readByte_eq_extractLsb'_readWord {W : Nat} (hW : 8 ∣ W) (m : Mem) (k : Nat) {n : Nat} (hn : n < W / 8) :
    m.readByte (W / 8 * k + n) = (m.readWord W k).extractLsb' (8 * n) 8 := by
  refine BitVec.eq_of_getLsbD_eq fun j hj => ?_
  rw [BitVec.getLsbD_extractLsb', Mem.getLsbD_readWord hW _ _ _ (by omega), show (8 * n + j) / 8 = n by omega,
    show (8 * n + j) % 8 = j by omega]
  simp [hj]

/-- Settles O55: the word's byte by `Mem.readByte_eq_extractLsb'_readWord`, the stream's bit by `bitAt_eq_readByte`. -/
theorem littleEndianByteView : Obligations.LittleEndianByteView := by
  intro c m k n j hn hj
  refine ⟨Mem.readByte_eq_extractLsb'_readWord c.eight_dvd_wordBits m k hn, ?_, fun h64 => ?_⟩
  · rw [bitAt_eq_readByte c.eight_dvd_wordBits c.wordBits_pos, Nat.mul_add_div (by decide), Nat.div_eq_of_lt hj,
      Nat.mul_add_mod, Nat.mod_eq_of_lt hj, Nat.add_zero]
  · have hbytes : c.wordBytes = 8 := by have := c.wordBits_eq; omega
    rw [hbytes]

/-! ## GET and SIZE only read -/

/-- Settles O39, by what SIZE and GET can do: each answer leaves everything that decides it as it was. -/
theorem getAndSizeOnlyRead : Obligations.GetAndSizeOnlyRead := by
  rintro i s t (rfl | ⟨a, rfl⟩) h
  · rcases execSize_cases s with ⟨hv, e⟩ | ⟨hv, e⟩ <;> cases e.symm.trans h
    · exact ⟨rfl, _, execSize_of_absent hv, rfl⟩
    · exact ⟨rfl, _, execSize_of_present hv, rfl⟩
  · rcases execGet_cases a s with ⟨hv, e⟩ | ⟨hv, ha, e⟩ | ⟨hv, ha, ⟨v, hr, e⟩ | ⟨_, _, e⟩⟩ <;> cases e.symm.trans h
    · exact ⟨rfl, _, execGet_of_absent hv, rfl⟩
    · exact ⟨rfl, _, execGet_of_out_of_range hv ha, rfl⟩
    · exact ⟨rfl, _, execGet_of_read hv ha hr, rfl⟩

end Sys2Proof.Machine
end

section
/-! Proofs of the encoding's statements (spec/30_encoding.md): the command word's fields (R61), the decoder against the
opcode table (R64, R65, R68, R69), the assembler (R71, R72), the ports (R67) and the data of a response (R66). -/

namespace Sys2Proof

/-! ## The fields of a command word -/

theorem toNat_cmdA (w : CmdWord) : (cmdA w).toNat = w.toNat / 2 ^ 64 := by
  have := w.isLt
  rw [cmdA, BitVec.extractLsb'_toNat, Nat.shiftRight_eq_div_pow]
  omega

theorem toNat_cmdB (w : CmdWord) : (cmdB w).toNat = w.toNat / 2 ^ 32 % 2 ^ 32 := by
  rw [cmdB, BitVec.extractLsb'_toNat, Nat.shiftRight_eq_div_pow]

theorem toNat_cmdRsvd (w : CmdWord) : (cmdRsvd w).toNat = w.toNat / 2 ^ 4 % 2 ^ 28 := by
  rw [cmdRsvd, BitVec.extractLsb'_toNat, Nat.shiftRight_eq_div_pow]

theorem toNat_cmdOp (w : CmdWord) : (cmdOp w).toNat = w.toNat % 2 ^ 4 := by
  rw [cmdOp, BitVec.extractLsb'_toNat, Nat.shiftRight_zero]

/-- The sum that R61 writes for a command word. -/
theorem toNat_cmdWordOf (a : Index) (b : Value) (r : BitVec 28) (o : BitVec 4) :
    (cmdWordOf a b r o).toNat = a.toNat * 2 ^ 64 + b.toNat * 2 ^ 32 + r.toNat * 2 ^ 4 + o.toNat := by
  have hb := b.isLt
  have hr := r.isLt
  have ho := o.isLt
  rw [cmdWordOf, BitVec.toNat_append, ← Nat.shiftLeft_add_eq_or_of_lt ho, BitVec.toNat_append,
    ← Nat.shiftLeft_add_eq_or_of_lt hr, BitVec.toNat_append, ← Nat.shiftLeft_add_eq_or_of_lt hb]
  simp only [Nat.shiftLeft_eq]
  omega

@[simp] theorem cmdA_cmdWordOf (a : Index) (b : Value) (r : BitVec 28) (o : BitVec 4) :
    cmdA (cmdWordOf a b r o) = a := by
  refine BitVec.eq_of_toNat_eq ?_
  rw [toNat_cmdA, toNat_cmdWordOf]
  omega

@[simp] theorem cmdB_cmdWordOf (a : Index) (b : Value) (r : BitVec 28) (o : BitVec 4) :
    cmdB (cmdWordOf a b r o) = b := by
  refine BitVec.eq_of_toNat_eq ?_
  rw [toNat_cmdB, toNat_cmdWordOf]
  omega

/-- A command word is made of its own fields. -/
theorem cmdWordOf_fields (w : CmdWord) : cmdWordOf (cmdA w) (cmdB w) (cmdRsvd w) (cmdOp w) = w := by
  refine BitVec.eq_of_toNat_eq ?_
  rw [toNat_cmdWordOf, toNat_cmdA, toNat_cmdB, toNat_cmdRsvd, toNat_cmdOp]
  omega

/-- Settles O3: the number by `toNat_cmdWordOf`, the way back by `cmdWordOf_fields`. -/
theorem commandWordLayout : Obligations.CommandWordLayout := ⟨toNat_cmdWordOf, cmdWordOf_fields⟩

/-! ## The decoder, one equation per opcode -/

section Decode

variable {w : CmdWord}

theorem decode_of_create (hrsvd : cmdRsvd w = 0#28) (hop : cmdOp w = 1#4) :
    decode w = .ok (.create (cmdA w) (cmdB w)) := by simp [decode, hrsvd, hop]

theorem decode_of_set (hrsvd : cmdRsvd w = 0#28) (hop : cmdOp w = 2#4) :
    decode w = .ok (.set (cmdA w) (cmdB w)) := by simp [decode, hrsvd, hop]

theorem decode_of_get (hrsvd : cmdRsvd w = 0#28) (hop : cmdOp w = 3#4) : decode w = .ok (.get (cmdA w)) := by
  simp [decode, hrsvd, hop]

theorem decode_of_destroy (hrsvd : cmdRsvd w = 0#28) (hop : cmdOp w = 4#4) : decode w = .ok .destroy := by
  simp [decode, hrsvd, hop]

theorem decode_of_size (hrsvd : cmdRsvd w = 0#28) (hop : cmdOp w = 5#4) : decode w = .ok .size := by
  simp [decode, hrsvd, hop]

theorem decode_of_rsvd (hrsvd : cmdRsvd w ≠ 0#28) : decode w = .error .reservedBits := if_pos hrsvd

/-- Exactly the words with a bit of `RSVD` set or a reserved `OP` are no command (R64, R65). -/
theorem decode_eq_error_iff :
    (∃ e, decode w = .error e) ↔ cmdRsvd w ≠ 0#28 ∨ cmdOp w ∉ [1#4, 2#4, 3#4, 4#4, 5#4] := by
  rcases Machine.decode_cases w with
    ⟨hrsvd, e⟩ | ⟨hrsvd, ⟨hop, e⟩ | ⟨hop, e⟩ | ⟨hop, e⟩ | ⟨hop, e⟩ | ⟨hop, e⟩ | ⟨hop, e⟩⟩
  case inl => exact ⟨fun _ => .inl hrsvd, fun _ => ⟨_, e⟩⟩
  case inr.inr.inr.inr.inr.inr => exact ⟨fun _ => .inr hop, fun _ => ⟨_, e⟩⟩
  all_goals simp [e, hrsvd, hop]

end Decode

/-- A command is decoded from its encoding: the low fields are those of `Laws.EncodeFields`, the operands are read back. -/
theorem decode_encode (i : Instr) : decode (encode i) = .ok i := by
  cases i with
  | create a b =>
    obtain ⟨hop, hrsvd⟩ := Laws.EncodeFields.create a b
    rw [decode_of_create hrsvd hop, encode, cmdA_cmdWordOf, cmdB_cmdWordOf]
  | set a b =>
    obtain ⟨hop, hrsvd⟩ := Laws.EncodeFields.set a b
    rw [decode_of_set hrsvd hop, encode, cmdA_cmdWordOf, cmdB_cmdWordOf]
  | get a =>
    obtain ⟨hop, hrsvd⟩ := Laws.EncodeFields.get a
    rw [decode_of_get hrsvd hop, encode, cmdA_cmdWordOf]
  | destroy =>
    obtain ⟨hop, hrsvd⟩ := Laws.EncodeFields.destroy
    exact decode_of_destroy hrsvd hop
  | size =>
    obtain ⟨hop, hrsvd⟩ := Laws.EncodeFields.size
    exact decode_of_size hrsvd hop

/-- Settles O1, by `decode_encode`. -/
theorem encodedCommandsDecodeBack : Obligations.EncodedCommandsDecodeBack := decode_encode

/-! ## The opcode table -/

/-- A row's match under the table's mask `[31:0]` is `RSVD = 0` and the row's `OP` (R68). -/
theorem masked_eq_iff (w : CmdWord) (op : BitVec 4) :
    w &&& 0xFFFFFFFF#128 = op.setWidth 128 ↔ cmdRsvd w = 0#28 ∧ cmdOp w = op := by
  have hmask : (w &&& 0xFFFFFFFF#128).toNat = w.toNat % 2 ^ 32 := by
    rw [BitVec.toNat_and]
    exact Nat.and_two_pow_sub_one_eq_mod w.toNat 32
  have hop : (op.setWidth 128).toNat = op.toNat := BitVec.toNat_setWidth_of_le (by decide)
  rw [← BitVec.toNat_inj, ← BitVec.toNat_inj, ← BitVec.toNat_inj, hmask, hop, toNat_cmdRsvd, toNat_cmdOp,
    BitVec.toNat_ofNat]
  omega

/-- Settles O2: each row's match by `masked_eq_iff` and that opcode's equation, no row by `decode_eq_error_iff`. -/
theorem decodingFollowsTheOpcodeTable : Obligations.DecodingFollowsTheOpcodeTable := by
  intro w
  have row := masked_eq_iff w
  refine ⟨fun hm => ?_, fun hm => ?_, fun hm => ?_, fun hm => ?_, fun hm => ?_, fun hm => ?_⟩
  · obtain ⟨hrsvd, hop⟩ := (row 1#4).1 hm
    exact decode_of_create hrsvd hop
  · obtain ⟨hrsvd, hop⟩ := (row 2#4).1 hm
    exact decode_of_set hrsvd hop
  · obtain ⟨hrsvd, hop⟩ := (row 3#4).1 hm
    exact decode_of_get hrsvd hop
  · obtain ⟨hrsvd, hop⟩ := (row 4#4).1 hm
    exact decode_of_destroy hrsvd hop
  · obtain ⟨hrsvd, hop⟩ := (row 5#4).1 hm
    exact decode_of_size hrsvd hop
  · refine decode_eq_error_iff.2 (or_iff_not_imp_left.2 fun hrsvd hop => hm ?_)
    have hrow : w &&& 0xFFFFFFFF#128 = (cmdOp w).setWidth 128 := (row _).2 ⟨not_not.1 hrsvd, rfl⟩
    rw [hrow]
    exact List.mem_map_of_mem (f := BitVec.setWidth 128) hop

/-- Field `A` is kept where field `B` is cleared. -/
theorem cmdA_clear_B (w : CmdWord) : cmdA (w &&& 0xFFFFFFFFFFFFFFFF00000000FFFFFFFF#128) = cmdA w := by
  have hones : (0xFFFFFFFFFFFFFFFF00000000FFFFFFFF#128).extractLsb' 64 64 = BitVec.allOnes 64 := by decide
  rw [cmdA, BitVec.extractLsb'_and, hones, BitVec.and_allOnes, cmdA]

/-- The bits under the table's mask are kept where field `B` is cleared. -/
theorem masked_clear_B (w : CmdWord) :
    (w &&& 0xFFFFFFFFFFFFFFFF00000000FFFFFFFF#128) &&& 0xFFFFFFFF#128 = w &&& 0xFFFFFFFF#128 := by
  rw [BitVec.and_assoc]; rfl

/-! ## The assembler -/

/-- The number of an assembled word whose operands fit their fields (R61, R72). -/
theorem toNat_cmdWordOf_ofNat {n m : Nat} (hn : n < 2 ^ 64) (hm : m < 2 ^ 32) (op : BitVec 4) :
    (cmdWordOf (BitVec.ofNat 64 n) (BitVec.ofNat 32 m) 0#28 op).toNat = n * 2 ^ 64 + m * 2 ^ 32 + op.toNat := by
  have hrsvd : (0#28).toNat = 0 := rfl
  rw [toNat_cmdWordOf, BitVec.toNat_ofNat, BitVec.toNat_ofNat, Nat.mod_eq_of_lt hn, Nat.mod_eq_of_lt hm, hrsvd,
    Nat.zero_mul, Nat.add_zero]

/-- Settles O6: the line's command by `toInstr`'s equations, the word's number by `toNat_cmdWordOf_ofNat`. -/
theorem assemblerRefusesWhatDoesNotFit : Obligations.AssemblerRefusesWhatDoesNotFit := by
  refine ⟨fun n m => ?_, fun n m => ?_, fun n => ?_, by decide, by decide⟩
  · rw [AsmLine.assemble, AsmLine.toInstr_create]
    split
    case isTrue h =>
      obtain ⟨hn, hm⟩ := h
      exact congrArg some (toNat_cmdWordOf_ofNat hn hm 1#4)
    case isFalse => rfl
  · rw [AsmLine.assemble, AsmLine.toInstr_set]
    split
    case isTrue h =>
      obtain ⟨hn, hm⟩ := h
      exact congrArg some (toNat_cmdWordOf_ofNat hn hm 2#4)
    case isFalse => rfl
  · rw [AsmLine.assemble, AsmLine.toInstr_get]
    split
    case isTrue hn =>
      have hget := toNat_cmdWordOf_ofNat hn (m := 0) (by decide) 3#4
      rw [Nat.zero_mul, Nat.add_zero] at hget
      exact congrArg some hget
    case isFalse => rfl

/-- Settles O4: the spec's words are evaluated, and decode back by `decode_encode`. -/
theorem encodingExamples : Obligations.EncodingExamples := by
  have hcreate : encode (.create 8#64 511#32) = 0x0000000000000008000001FF00000001#128 := by decide
  have hset : encode (.set 7#64 0x1FF#32) = 0x0000000000000007000001FF00000002#128 := by decide
  have hget : encode (.get 7#64) = 0x00000000000000070000000000000003#128 := by decide
  have hdestroy : encode .destroy = 0x00000000000000000000000000000004#128 := by decide
  have hsize : encode .size = 0x00000000000000000000000000000005#128 := by decide
  exact ⟨hcreate, hset, hget, hdestroy, hsize, hcreate ▸ decode_encode _, hset ▸ decode_encode _,
    hget ▸ decode_encode _, hdestroy ▸ decode_encode _, hsize ▸ decode_encode _, decode_of_rsvd (by decide)⟩

end Sys2Proof

namespace Sys2Proof.Machine

/-! ## Serving a word -/

/-- Words of the same command are served alike. -/
theorem runCommand_congr {w w' : CmdWord} {i : Instr} (hw : decode w = .ok i) (hw' : decode w' = .ok i) (s : State) :
    runCommand w s = runCommand w' s := by
  rw [runCommand_of_decode hw, runCommand_of_decode hw']

/-- Settles O5: with the ignored fields cleared a word decodes to the same command (`runCommand_congr`). -/
theorem ignoredOperandsHaveNoEffect : Obligations.IgnoredOperandsHaveNoEffect := by
  intro w s
  refine ⟨fun hm => ?_, fun hm => ?_, fun hm => ?_⟩
  · obtain ⟨hrsvd, hop⟩ := (masked_eq_iff w 3#4).1 hm
    obtain ⟨hrsvd', hop'⟩ := (masked_eq_iff _ 3#4).1 ((masked_clear_B w).trans hm)
    have hcleared := decode_of_get hrsvd' hop'
    rw [cmdA_clear_B] at hcleared
    exact runCommand_congr (decode_of_get hrsvd hop) hcleared s
  · obtain ⟨hrsvd, hop⟩ := (masked_eq_iff w 4#4).1 hm
    exact runCommand_congr (decode_of_destroy hrsvd hop) (decode_encode .destroy) s
  · obtain ⟨hrsvd, hop⟩ := (masked_eq_iff w 5#4).1 hm
    exact runCommand_congr (decode_of_size hrsvd hop) (decode_encode .size) s

/-- Settles O8: the word is no command (`decode_eq_error_iff`), and `raise Error(ILLEGAL)` sets bit 5. -/
theorem illegalWordRaisesIllegal : Obligations.IllegalWordRaisesIllegal := by
  intro w s h
  have hillegal : cmdRsvd w ≠ 0#28 ∨ cmdOp w ∉ [1#4, 2#4, 3#4, 4#4, 5#4] := by
    refine h.imp_right fun hop hmem => ?_
    change (cmdOp w).toNat = 0 ∨ 6 ≤ (cmdOp w).toNat at hop
    simp only [List.mem_cons, List.not_mem_nil, or_false] at hmem
    rcases hmem with e | e | e | e | e <;> simp [e] at hop
  obtain ⟨e, he⟩ := decode_eq_error_iff.2 hillegal
  exact runCommand_of_illegal he

/-! ## The ports -/

/-- Reset holds the outputs of both handshakes at 0 (R67). -/
theorem State.ports_of_rst (s : State) {p : PortIn} (hrst : p.rst = true) :
    s.cmdReady p = false ∧ s.rspValid p = false := by
  simp [State.cmdReady, State.rspValid, hrst]

theorem State.ports_of_no_response {s : State} {p : PortIn} (hrst : p.rst = false) (hrsp : s.rsp = none) :
    s.cmdReady p = true ∧ s.rspValid p = false := by
  simp [State.cmdReady, State.rspValid, hrst, hrsp]

theorem State.ports_of_response {s : State} {p : PortIn} {r : Response} (hrst : p.rst = false)
    (hrsp : s.rsp = some r) : s.cmdReady p = false ∧ s.rspValid p = true ∧
      s.rspStatus p = some r.status.code ∧ s.rspData p = some r.data := by
  simp [State.cmdReady, State.rspValid, State.rspStatus, State.rspData, State.rspOffered_eq, hrst, hrsp]

/-- With bit 0 clear the port shows the register as it is (R26). -/
theorem State.errStickyPort_eq {s : State} (h : s.errSticky.getLsbD 0 = false) : s.errStickyPort = s.errSticky := by
  refine BitVec.eq_of_getLsbD_eq fun j _ => ?_
  rw [s.getLsbD_errStickyPort]
  rcases Nat.eq_zero_or_pos j with rfl | hj
  · exact h.symm
  · simp [hj.ne']

/-- Settles O9: the levels by the `ports` lemmas, the step by the equation of what its edge does. -/
theorem edgeHandshake : Obligations.EdgeHandshake := by
  intro s p rest hin
  rw [step_cons hin]
  refine ⟨s.ports_of_rst, fun hrst hrsp => ?_, fun r hrst hrsp => ?_, State.errStickyPort_eq⟩
  · obtain ⟨hready, hvalid⟩ := State.ports_of_no_response hrst hrsp
    refine ⟨hready, hvalid, fun hcmd => onEdge_of_accept hrst hcmd hrsp, fun hcmd => onEdge_of_idle hrst ?_ ?_⟩
    · simp [hcmd]
    · simp [hrsp]
  · obtain ⟨hready, hvalid, hstatus, hdata⟩ := State.ports_of_response hrst hrsp
    refine ⟨hready, hvalid, hstatus, hdata, fun htake => onEdge_of_take hrst htake ?_,
      fun htake => onEdge_of_idle hrst ?_ ?_⟩
    · simp [hrsp]
    · simp [hrsp]
    · simp [htake]

/-- The opcode table's bits give a command exactly when their word decodes to it. -/
theorem decodeTableWord_eq_some_iff {nbits w : Nat} {i : Instr} :
    decodeTableWord nbits w = some i ↔ decode (tableWord nbits w) = .ok i := by
  unfold decodeTableWord
  cases decode (tableWord nbits w) <;> simp

/-- Settles O7: the edge accepts the word (`onEdge_of_accept`), which is served as its command. -/
theorem stepRunsTheOfferedCommand : Obligations.StepRunsTheOfferedCommand := by
  refine ⟨fun s p rest i hin hrst hcmd hrsp hw => ?_, fun s nbits w i hw => ?_⟩
  · rw [step_cons hin]
    exact (onEdge_of_accept (s := { s with inputs := rest }) hrst hcmd hrsp).trans (runCommand_of_decode hw)
  · have hin : (s.withFetchWord nbits w).inputs = offer (tableWord nbits w) :: s.inputs := State.offerNext_inputs s _
    rw [step_cons hin, onEdge_of_accept rfl rfl rfl]
    exact runCommand_of_decode (decodeTableWord_eq_some_iff.1 hw)

/-! ## The data of a response -/

/-- A value with no bit at or above `n` is below `2^n`. -/
theorem toNat_lt_two_pow_of_getLsbD {W n : Nat} {v : StorageWord W} (h : ∀ j, n ≤ j → v.getLsbD j = false) :
    v.toNat < 2 ^ n :=
  Nat.lt_pow_two_of_testBit _ h

/-- The single-word masked read answers `w` bits (spec/42_read.md R120). -/
theorem readSingle_lt {W : Nat} (word : StorageWord W) (off w : Nat) : (readSingle word off w).toNat < 2 ^ w :=
  toNat_lt_two_pow_of_getLsbD fun j hj => by simp [readSingle, Nat.not_lt.2 hj]

/-- The split-word masked read answers `b1 + b2` bits (R121). -/
theorem readSplit_lt {W : Nat} (word0 word1 : StorageWord W) (off b1 b2 : Nat) :
    (readSplit word0 word1 off b1 b2).toNat < 2 ^ (b1 + b2) :=
  toNat_lt_two_pow_of_getLsbD fun j hj => by
    simp [readSplit, show ¬ j < b1 by omega, show ¬ j - b1 < b2 by omega]

/-- An element's value fits its width, whatever the storage (R125). -/
theorem readElement_lt {W wc i w : Nat} {m : Mem} {v : StorageWord W} (hpos : 0 < W)
    (h : readElement W wc m i w = .ok v) : v.toNat < 2 ^ w := by
  obtain ⟨_, _, _, hsplit, hfirst, hsecond⟩ := decodeAddr_spec hpos i w
  rcases readElement_cases W wc m i w with ⟨_, _, e⟩ | ⟨_, hs, e⟩ | ⟨_, e⟩ <;> cases e.symm.trans h
  · exact readSingle_lt _ _ _
  · rw [if_pos hs] at hfirst hsecond
    have hspan := hsplit.1 hs
    have hsum : (decodeAddr W i w).bitsInFirst + (decodeAddr W i w).bitsInSecond = w := by omega
    exact (readSplit_lt _ _ _ _ _).trans_eq (congrArg _ hsum)

/-- A command that answers data other than 0 is a GET with the element's value, or a SIZE (R66, R125). -/
theorem exec_nonzero_data {i : Instr} {s t : State} {r : Response} (h : exec i s = .next t) (hr : t.rsp = some r)
    (hdata : r.data ≠ 0#64) : (∃ a, i = .get a ∧ r.data.toNat < 2 ^ s.bitWidth.toNat) ∨ i = .size := by
  cases i with
  | create a b =>
    rcases execCreate_cases a b s with ⟨_, e⟩ | ⟨_, _, e⟩ | ⟨_, _, e⟩ <;> cases e.symm.trans h <;> cases hr <;>
      exact absurd rfl hdata
  | set a b =>
    rcases execSet_cases a b s with ⟨_, e⟩ | ⟨_, _, e⟩ | ⟨_, _, ⟨m, _, e⟩ | ⟨_, _, e⟩⟩ <;> cases e.symm.trans h <;>
      cases hr <;> exact absurd rfl hdata
  | get a =>
    rcases execGet_cases a s with ⟨_, e⟩ | ⟨_, _, e⟩ | ⟨_, _, ⟨v, hv, e⟩ | ⟨_, _, e⟩⟩ <;> cases e.symm.trans h <;>
      cases hr
    · exact absurd rfl hdata
    · exact absurd rfl hdata
    · refine .inl ⟨a, rfl, ?_⟩
      calc (v.setWidth 64).toNat = v.toNat % 2 ^ 64 := BitVec.toNat_setWidth _ _
        _ ≤ v.toNat := Nat.mod_le _ _
        _ < 2 ^ s.bitWidth.toNat := readElement_lt s.cfg.wordBits_pos hv
  | destroy =>
    rcases execDestroy_cases s with ⟨_, e⟩ | ⟨_, e⟩ <;> cases e.symm.trans h <;> cases hr <;> exact absurd rfl hdata
  | size => exact .inr rfl

theorem Status.code_le_five (c : Status) : c.code.toNat ≤ 5 := by cases c <;> decide

/-- Settles O51: an error's data is 0 (`runCommand_next_cases`), and `exec_nonzero_data` names the command. -/
theorem onlyGetAndSizeAnswerNonzeroData : Obligations.OnlyGetAndSizeAnswerNonzeroData := by
  intro w s t r h hr
  refine ⟨r.status.code_le_five, fun hdata => ?_⟩
  rcases runCommand_next_cases h with ⟨c, _, rfl⟩ | hok
  case inl => cases hr; exact absurd rfl hdata
  obtain ⟨data, hanswer⟩ := hok.rsp
  have hstatus : r.status = .ok := by cases hanswer.symm.trans hr; rfl
  refine ⟨hstatus, ?_⟩
  rcases runCommand_cases w s with ⟨i, hi, e⟩ | ⟨_, _, e⟩
  · rcases exec_nonzero_data (e.symm.trans h) hr hdata with ⟨a, rfl, hlt⟩ | rfl
    · exact .inl ⟨a, hi, hlt⟩
    · exact .inr hi
  · cases e.symm.trans h; cases hr; exact absurd rfl hdata

end Sys2Proof.Machine
end

section
/-! Proofs of the construction's statements (spec/40_construction.md): the bit-width calculator (R80, R87), the word-count
calculator (R81), the zero fill (R84) and CREATE (R82 to R84, R86, R88, R89). -/

namespace Sys2Proof.Machine

/-! ## The bit-width calculator -/

@[simp] theorem bitwidth_zero : bitwidth 0#32 = 1 := rfl

theorem bitwidth_of_ne_zero {m : Value} (hm : m ≠ 0#32) : bitwidth m = m.toNat.log2 + 1 := if_neg hm

/-- The width is the one power-of-two bracket the value lies in: its highest set bit is bit `k` (R80). -/
theorem bitwidth_eq_succ_iff {m : Value} (hm : m ≠ 0#32) {k : Nat} :
    bitwidth m = k + 1 ↔ 2 ^ k ≤ m.toNat ∧ m.toNat < 2 ^ (k + 1) := by
  rw [bitwidth_of_ne_zero hm, Nat.add_right_cancel_iff]
  exact Nat.log2_eq_iff (BitVec.toNat_ne.1 hm)

theorem bitwidth_eq_of_bracket {m : Value} {k : Nat} (hlow : 2 ^ k ≤ m.toNat) (hhigh : m.toNat < 2 ^ (k + 1)) :
    bitwidth m = k + 1 := by
  have hm : m ≠ 0#32 := by
    rintro rfl
    exact absurd hlow (Nat.not_le.2 (Nat.two_pow_pos k))
  exact (bitwidth_eq_succ_iff hm).2 ⟨hlow, hhigh⟩

/-- No shorter width holds a value that is not 0. -/
theorem two_pow_bitwidth_sub_one_le {m : Value} (hm : m ≠ 0#32) : 2 ^ (bitwidth m - 1) ≤ m.toNat := by
  obtain ⟨hlow, _⟩ := (bitwidth_eq_succ_iff hm).1 (bitwidth_of_ne_zero hm)
  rwa [bitwidth_of_ne_zero hm, Nat.add_sub_cancel]

/-- The width holds the value. -/
theorem toNat_lt_two_pow_bitwidth (m : Value) : m.toNat < 2 ^ bitwidth m := by
  by_cases hm : m = 0#32
  · subst hm; decide
  · rw [bitwidth_of_ne_zero hm]
    exact Nat.lt_log2_self

/-- The width counts the bits below the leading zeros. -/
theorem bitwidth_eq_sub_clz {m : Value} (hm : m ≠ 0#32) : bitwidth m = 32 - m.clz.toNat := by
  have hclz : m.clz.toNat < 32 := BitVec.lt_def.1 (BitVec.clz_lt_iff_ne_zero.2 hm)
  have hwidth : 32 - m.clz.toNat = 32 - 1 - m.clz.toNat + 1 := by omega
  have hhigh : m.toNat < 2 ^ (32 - m.clz.toNat) := BitVec.toNat_lt_two_pow_sub_clz
  rw [hwidth] at hhigh ⊢
  exact bitwidth_eq_of_bracket (BitVec.two_pow_sub_clz_le_toNat_of_ne_zero (by decide) hm) hhigh

/-- The width is the least exponent whose power of two is above the value. -/
theorem bitwidth_eq_clog {m : Value} (hm : m ≠ 0#32) : bitwidth m = Nat.clog 2 (m.toNat + 1) := by
  have hpos : 1 ≤ bitwidth m := (bitwidth_bounds m).1
  have hlow : bitwidth m - 1 < Nat.clog 2 (m.toNat + 1) :=
    (Nat.lt_clog_iff_pow_lt one_lt_two).2 (Nat.lt_succ_of_le (two_pow_bitwidth_sub_one_le hm))
  have hhigh : Nat.clog 2 (m.toNat + 1) ≤ bitwidth m := Nat.clog_le_of_le_pow (toNat_lt_two_pow_bitwidth m)
  omega

theorem bitwidth_two_pow {k : Nat} (hk : k < 32) : bitwidth (BitVec.ofNat 32 (2 ^ k)) = k + 1 := by
  have hval : (BitVec.ofNat 32 (2 ^ k)).toNat = 2 ^ k := Nat.mod_eq_of_lt (Nat.pow_lt_pow_right one_lt_two hk)
  exact bitwidth_eq_of_bracket hval.ge (hval.trans_lt (Nat.pow_lt_pow_succ one_lt_two))

/-- The greatest value of `k + 1` bits needs all of them. -/
theorem bitwidth_two_pow_sub_one {k : Nat} (hk : k < 32) : bitwidth (BitVec.ofNat 32 (2 ^ (k + 1) - 1)) = k + 1 := by
  have hpos : 1 ≤ 2 ^ k := Nat.one_le_two_pow
  have hdouble : 2 ^ (k + 1) = 2 ^ k * 2 := pow_succ 2 k
  have hword : 2 ^ (k + 1) ≤ 2 ^ 32 := Nat.pow_le_pow_right two_pos hk
  have hval : (BitVec.ofNat 32 (2 ^ (k + 1) - 1)).toNat = 2 ^ (k + 1) - 1 := Nat.mod_eq_of_lt (by omega)
  apply bitwidth_eq_of_bracket <;> omega

/-- Settles O19: each form is the bracket of `bitwidth_eq_succ_iff` said in another way. -/
theorem bitwidthIsTheHighestSetBitPlusOne : Obligations.BitwidthIsTheHighestSetBitPlusOne := by
  refine ⟨fun m => ⟨?_, ?_, fun hm => ?_⟩, fun k hk => bitwidth_two_pow hk, fun k hk hk' => ?_⟩
  · exact ⟨(bitwidth_bounds m).1, (bitwidth_bounds m).2, toNat_lt_two_pow_bitwidth m⟩
  · rintro rfl; exact bitwidth_zero
  · exact ⟨two_pow_bitwidth_sub_one_le hm, bitwidth_eq_sub_clz hm, bitwidth_eq_clog hm⟩
  · obtain ⟨j, rfl⟩ := Nat.exists_eq_add_of_le' hk
    exact bitwidth_two_pow_sub_one hk'

/-- Settles O20: each value but 0 with the powers of two around it (`bitwidth_eq_of_bracket`). -/
theorem bitwidthBoundaryValues : Obligations.BitwidthBoundaryValues := by
  refine ⟨bitwidth_zero, ?_, ?_, ?_, ?_⟩ <;> exact bitwidth_eq_of_bracket (by decide) (by decide)

/-! ## The word-count calculator -/

/-- The word count is the one number of words that holds the elements with less than a word of padding (R81). -/
theorem wordcount_eq_of_bounds {W n w k : Nat} (hcover : n * w ≤ k * W) (hshort : k * W < n * w + W) :
    wordcount W n w = k := by
  refine Nat.div_eq_of_lt_le ?_ ?_
  · omega
  · rw [Nat.succ_mul]; omega

theorem wordcount_zero {W : Nat} (hpos : 0 < W) (w : Nat) : wordcount W 0 w = 0 :=
  wordcount_eq_of_bounds (by simp) (by simpa using hpos)

theorem wordcount_eq_one {W n w : Nat} (hbit : 1 ≤ n * w) (hword : n * w ≤ W) : wordcount W n w = 1 :=
  wordcount_eq_of_bounds (by omega) (by omega)

/-- The division by the word width is a shift, the width being a power of two (spec/00_scope.md R7). -/
theorem wordcount_eq_shiftRight (c : Config) (n w : Nat) :
    wordcount c.wordBits n w = (n * w + c.wordBits - 1) >>> Nat.log2 c.wordBits := by
  have hlog : 2 ^ Nat.log2 c.wordBits = c.wordBits := by rw [c.wordBits_eq_two_pow, Nat.log2_two_pow]
  rw [Nat.shiftRight_eq_div_pow, hlog, wordcount, ceilDiv]

/-- Settles O21, by `wordcount_bounds` and the shift form. -/
theorem wordcountIsTheExactCeiling : Obligations.WordcountIsTheExactCeiling := by
  intro c n w _ _ _
  obtain ⟨hcover, hshort⟩ := wordcount_bounds c.wordBits_pos n w
  exact ⟨hcover, by omega, wordcount_eq_shiftRight c n w, wordcount_zero c.wordBits_pos w, wordcount_eq_one⟩

/-! ## The zero fill -/

/-- Every word below the fill's count reads 0 (R84). -/
theorem Mem.readWord_zeroFill {W wc k : Nat} (hW : 8 ∣ W) (hpos : 0 < W) (m : Mem) (hk : k < wc) :
    (m.zeroFill W wc).readWord W k = 0#W := by
  refine BitVec.eq_of_getLsbD_eq fun j hj => ?_
  have hlive : k * W + W ≤ wc * W := span_end_le hk W
  rw [getLsbD_readWord_eq_bitAt hj, bitAt_zeroFill hW hpos, if_pos (by omega), BitVec.getLsbD_zero]

theorem Mem.zeroFillLoop_wf {m : Mem} (hm : m.wf) (W wc : Nat) : (m.zeroFillLoop W wc).wf := by
  induction wc with
  | zero => exact hm
  | succ wc ih => exact Mem.writeWord_wf ih W wc _

/-- The byte read after the loop of MemWrites of 0 (R84). -/
theorem Mem.readByte_zeroFillLoop {m : Mem} (hm : m.wf) (W wc a : Nat) :
    (m.zeroFillLoop W wc).readByte a = if a < W / 8 * wc then 0#8 else m.readByte a := by
  induction wc with
  | zero => rfl
  | succ wc ih =>
    rw [Mem.zeroFillLoop, Mem.writeWord, Mem.readByte_writeBytes (Mem.zeroFillLoop_wf hm W wc), ih, Nat.mul_succ]
    by_cases hword : W / 8 * wc ≤ a ∧ a < W / 8 * wc + W / 8
    · rw [if_pos hword, if_pos hword.2]
      simp
    · rw [if_neg hword]
      exact if_congr (by omega) rfl rfl

/-- Settles O23: both fills are canonical and read alike at every byte, so they are the same data. -/
theorem zeroFillIsTheSpecsLoop : Obligations.ZeroFillIsTheSpecsLoop := by
  intro W m wc _ hm
  refine Mem.eq_of_readByte_eq (Mem.zeroFill_wf hm W wc) (Mem.zeroFillLoop_wf hm W wc) fun a => ?_
  rw [Mem.readByte_zeroFill, Mem.readByte_zeroFillLoop hm]

/-- An element whose words all lie in the fill reads 0. -/
theorem readElement_zeroFill {W wc i w : Nat} (hW : 8 ∣ W) (hpos : 0 < W) (m : Mem) (hlive : ¬ ElementNotLive W wc i w) :
    readElement W wc (m.zeroFill W wc) i w = .ok 0#W := by
  rcases readElement_cases W wc (m.zeroFill W wc) i w with ⟨hfirst, _, e⟩ | ⟨hsecond, _, e⟩ | ⟨hdead, _⟩
  · rw [e, Mem.readWord_zeroFill hW hpos m hfirst]
    simp [readSingle]
  · rw [e, Mem.readWord_zeroFill hW hpos m (Nat.lt_of_succ_lt hsecond), Mem.readWord_zeroFill hW hpos m hsecond]
    simp [readSplit]
  · exact absurd hdead hlive

/-! ## The array that CREATE makes -/

@[simp] theorem State.created_storage (s : State) (a : Index) (b : Value) : (s.created a b).storage =
    s.storage.zeroFill s.cfg.wordBits (wordcount s.cfg.wordBits a.toNat (bitwidth b)) := rfl

@[simp] theorem State.toNat_created_bitWidth (s : State) (a : Index) (b : Value) :
    (s.created a b).bitWidth.toNat = bitwidth b := toNat_ofNat_bitwidth b

/-- The words of every element of the new array are live, by the rounding of the word count (R81, spec/41_write.md R101). -/
theorem not_elementNotLive_of_wordcount {W i n w : Nat} (hpos : 0 < W) (hw : 0 < w) (hi : i < n) :
    ¬ ElementNotLive W (wordcount W n w) i w := by
  obtain ⟨hcover, _⟩ := wordcount_bounds hpos n w
  exact not_elementNotLive_of_span_end_le hpos hw ((span_end_le hi w).trans hcover)

/-- The element reader finds 0 in every element of the new array (R86). -/
theorem readElement_created (s : State) {a i : Index} (b : Value) (hi : i < a) :
    readElement (s.created a b).cfg.wordBits (s.created a b).wordCount (s.created a b).storage i.toNat
      (s.created a b).bitWidth.toNat = .ok 0#_ := by
  have hlive : ¬ ElementNotLive s.cfg.wordBits (wordcount s.cfg.wordBits a.toNat (bitwidth b)) i.toNat (bitwidth b) :=
    not_elementNotLive_of_wordcount s.cfg.wordBits_pos (bitwidth_bounds b).1 hi
  rw [State.toNat_created_bitWidth]
  exact readElement_zeroFill s.cfg.eight_dvd_wordBits s.cfg.wordBits_pos s.storage hlive

/-- GET of an element of the new array answers 0 (R86). -/
theorem execGet_created (s : State) {a i : Index} (b : Value) (hi : i < a) :
    execGet i ((s.created a b).respond .ok 0#64) = .next ((s.created a b).respond .ok 0#64) := by
  have hget := execGet_of_read (s := (s.created a b).respond .ok 0#64) (v := 0#_) rfl hi (readElement_created s b hi)
  rwa [BitVec.setWidth_zero] at hget

/-! ## The statements of CREATE -/

/-- Settles O22, case by case of CREATE; the new array's words by `Mem.readWord_zeroFill`, the storage above them by
`Mem.readByte_zeroFill`. -/
theorem createEffect : Obligations.CreateEffect := by
  refine fun a b s => ⟨fun hv => execCreate_of_present hv, fun hv hw => execCreate_of_too_large hv hw, fun hv hw => ?_⟩
  refine ⟨_, execCreate_of_fits hv hw, rfl, State.toNat_created_bitWidth s a b, rfl, rfl, fun k hk => ?_,
    fun x hx => ?_, rfl, rfl, rfl, rfl⟩
  · exact Mem.readWord_zeroFill s.cfg.eight_dvd_wordBits s.cfg.wordBits_pos s.storage hk
  · rw [State.respond_storage, State.created_storage, Mem.readByte_zeroFill, if_neg]
    rwa [Nat.not_lt, Nat.mul_comm]

/-- Settles O24: `execGet_created` on the state that CREATE answers. -/
theorem createdElementsReadZero : Obligations.CreatedElementsReadZero := by
  intro s a i b hv hw hi
  exact ⟨_, _, execCreate_of_fits hv hw, execGet_created s b hi, rfl⟩

/-- Settles O25: no words are needed (`wordcount_zero`), and no index is below a `CAPACITY` of 0. -/
theorem emptyArray : Obligations.EmptyArray := by
  intro s b hv
  have hwc : wordcount s.cfg.wordBits (0#64).toNat (bitwidth b) = 0 := wordcount_zero s.cfg.wordBits_pos _
  have hfits : wordcount s.cfg.wordBits (0#64).toNat (bitwidth b) ≤ s.cfg.maxWords := hwc.trans_le (Nat.zero_le _)
  have hout : ∀ i : Index, ((s.created 0#64 b).respond .ok 0#64).capacity ≤ i := fun i => Nat.zero_le i.toNat
  exact ⟨_, execCreate_of_fits hv hfits, rfl, hwc, rfl,
    fun i v => ⟨execSet_of_out_of_range rfl (hout i), execGet_of_out_of_range rfl (hout i)⟩⟩

/-- Settles O26: the width by `bitwidth_eq_of_bracket`, the word count by `wordcount_eq_of_bounds`, and SIZE answers the
bytes of that many words. -/
theorem sizingExample : Obligations.SizingExample := by
  intro s hv hW hmax
  have hwidth : bitwidth 200#32 = 8 := bitwidth_eq_of_bracket (by decide) (by decide)
  have hcount : wordcount s.cfg.wordBits (1000000#64).toNat (bitwidth 200#32) = 125000 := by
    rw [hW, hwidth]
    exact wordcount_eq_of_bounds (by decide) (by decide)
  have hbytes : s.cfg.wordBytes = 8 := by have := s.cfg.wordBits_eq; omega
  have hdata : (BitVec.ofNat 64 (wordcount s.cfg.wordBits (1000000#64).toNat (bitwidth 200#32) * s.cfg.wordBytes)).toNat =
      1000000 := by rw [hcount, hbytes]; rfl
  exact ⟨_, _, execCreate_of_fits hv (hcount.trans_le hmax), (State.toNat_created_bitWidth s 1000000#64 _).trans hwidth,
    hcount, execSize_of_present rfl, _, rfl, hdata, congrArg (4 * ·) hdata⟩

end Sys2Proof.Machine
end

section
/-! Proofs of the write's statements (spec/41_write.md): the bit-address decoder (R100, R101), the masked writes bit by bit
(R102, R103), the effect of SET on the element and on the rest of storage (R104 to R106), and what GET reads of it
(R108). -/

namespace Sys2Proof.Machine

/-! ## The bit-address decoder -/

theorem decodeAddr_wordIndex (W i w : Nat) : (decodeAddr W i w).wordIndex = i * w / W := rfl

theorem decodeAddr_bitOffset (W i w : Nat) : (decodeAddr W i w).bitOffset = i * w % W := rfl

/-- Settles O27: division and remainder by the word width are a shift and a mask, the width being a power of two; the rest
is `decodeAddr_spec`. -/
theorem addressDecoderShiftForm : Obligations.AddressDecoderShiftForm := by
  intro c i w _ _ d k
  have hwidth : c.wordBits = 2 ^ k := c.wordBits_eq_two_pow
  obtain ⟨hstart, _, _, hsplit, hfirst, hsecond⟩ := decodeAddr_spec c.wordBits_pos i.toNat w
  refine ⟨hwidth, hstart, ?_, ?_, hsplit, fun hs => ?_, fun hs => ?_⟩
  · rw [decodeAddr_wordIndex, hwidth, Nat.shiftRight_eq_div_pow]
  · rw [decodeAddr_bitOffset, hwidth, Nat.and_two_pow_sub_one_eq_mod]
  · rw [if_pos hs] at hfirst hsecond
    exact ⟨hfirst, by rw [hsecond, hfirst]⟩
  · rw [if_neg (by simp [d, hs])] at hfirst hsecond
    exact ⟨hfirst, hsecond⟩

/-- An element is split exactly if its offset leaves less room than its width (R101). -/
theorem decodeAddr_split_iff {W w : Nat} (hpos : 0 < W) (hwide : w ≤ W) (i : Nat) :
    (decodeAddr W i w).split = true ↔ W - w < (decodeAddr W i w).bitOffset := by
  obtain ⟨_, _, _, hsplit, _, _⟩ := decodeAddr_spec hpos i w
  rw [hsplit]
  omega

/-- The two groups of a split element: both have a bit, and together they are the element (R101). -/
theorem decodeAddr_split_groups {W i w : Nat} (hpos : 0 < W) (hs : (decodeAddr W i w).split = true) :
    1 ≤ (decodeAddr W i w).bitsInFirst ∧ 1 ≤ (decodeAddr W i w).bitsInSecond ∧
      (decodeAddr W i w).bitsInFirst + (decodeAddr W i w).bitsInSecond = w := by
  obtain ⟨_, _, hoff, hsplit, hfirst, hsecond⟩ := decodeAddr_spec hpos i w
  rw [if_pos hs] at hfirst hsecond
  have hspan := hsplit.1 hs
  omega

/-- No element is split where its width divides the word's: the room above its offset is a multiple of the width (R101). -/
theorem decodeAddr_not_split_of_dvd {W w : Nat} (hpos : 0 < W) (i : Nat) (hdvd : w ∣ W) :
    (decodeAddr W i w).split = false := by
  obtain ⟨_, _, hoff, hsplit, _, _⟩ := decodeAddr_spec hpos i w
  have hmul : w ∣ (decodeAddr W i w).bitOffset := (Nat.dvd_mod_iff hdvd).2 (Nat.dvd_mul_left w i)
  have hroom : w ≤ W - (decodeAddr W i w).bitOffset := Nat.le_of_dvd (by omega) (Nat.dvd_sub hdvd hmul)
  rw [Bool.eq_false_iff, ne_eq, hsplit]
  omega

/-- A bit of an element's span lies in a word that the decoder selects (R100). -/
theorem decodeAddr_word_of_mem_span {W i w b : Nat} (hpos : 0 < W) (hw : w ≤ W) (hspan : i * w ≤ b ∧ b < i * w + w) :
    b / W = (decodeAddr W i w).wordIndex ∨
      ((decodeAddr W i w).split = true ∧ b / W = (decodeAddr W i w).wordIndex + 1) := by
  obtain ⟨_, hstart, hoff, hsplit, _, _⟩ := decodeAddr_spec hpos i w
  generalize decodeAddr W i w = d at *
  have hnext : (d.wordIndex + 1) * W = d.wordIndex * W + W := Nat.succ_mul _ _
  by_cases hb : b < (d.wordIndex + 1) * W
  · exact .inl (Nat.div_eq_of_lt_le (by omega) hb)
  · refine .inr ⟨hsplit.2 (by omega), Nat.div_eq_of_lt_le (by omega) ?_⟩
    rw [Nat.succ_mul]
    omega

/-- The last bit of an element lies at most one word above its first (R101). -/
theorem decodeAddr_last_word_le {W i w : Nat} (hpos : 0 < W) (hw : 1 ≤ w) (hwide : w ≤ W) :
    (i * w + w - 1) / W ≤ (decodeAddr W i w).wordIndex + 1 := by
  rcases decodeAddr_word_of_mem_span hpos hwide (i := i) (b := i * w + w - 1) (by omega) with h | ⟨_, h⟩ <;> omega

/-- The width of a present array's elements is no more than the word's (spec/10_state.md R24, spec/00_scope.md R7). -/
theorem State.Inv.bitWidth_le_wordBits {s : State} (hs : s.Inv) (hv : s.cfgValid = true) :
    s.bitWidth.toNat ≤ s.cfg.wordBits := (hs.width hv).2.trans s.cfg.wordBits_ge

/-- Settles O28, item by item: the groups, the words that are live (`State.Inv.not_elementNotLive`), the widths that divide
the word, and the last bit's word. -/
theorem addressDecoderProperties : Obligations.AddressDecoderProperties := by
  intro s i hs hv hi W w d
  have hpos : 0 < W := s.cfg.wordBits_pos
  have hwide : w ≤ W := hs.bitWidth_le_wordBits hv
  have hsplit : d.split = true ↔ W - w < d.bitOffset := decodeAddr_split_iff hpos hwide i.toNat
  obtain ⟨hfirst, hsecond⟩ := not_or.1 (hs.not_elementNotLive hv hi)
  refine ⟨fun h => ?_, hsplit.1, ⟨Nat.not_le.1 hfirst, fun h => ?_⟩, decodeAddr_not_split_of_dvd hpos i.toNat, hsplit,
    decodeAddr_last_word_le hpos (hs.width hv).1 hwide⟩
  · have hgroups : 1 ≤ d.bitsInFirst ∧ 1 ≤ d.bitsInSecond ∧ d.bitsInFirst + d.bitsInSecond = w :=
      decodeAddr_split_groups hpos h
    omega
  · exact Nat.not_le.1 fun hdead => hsecond ⟨h, hdead⟩

/-! ## The masked writes -/

/-- Settles O30, by the bits of the single-word write. -/
theorem singleWordWriteBits : Obligations.SingleWordWriteBits :=
  fun _ old _ off _ j _ hv hj => getLsbD_writeSingle hv old off j hj

/-- Settles O31, by the bits of the two words of the split write. -/
theorem splitWordWriteBits : Obligations.SplitWordWriteBits :=
  fun _ old0 old1 v off _ j _ _ _ _ hj =>
    ⟨getLsbD_writeSplitFirst old0 v off j hj, getLsbD_writeSplitSecond old1 v _ _ j hj⟩

/-! ## The element after SET -/

/-- The bits of an element's value are the stream's bits in its span (spec/20_memory.md R44). -/
theorem State.testBit_elem (s : State) (i j : Nat) :
    (s.elem i).testBit j = (decide (j < s.bitWidth.toNat) && s.bitAt (i * s.bitWidth.toNat + j)) :=
  testBit_bitSum _ _ _

section ElementSet

variable {s t : State} {a : Index} {b : Value}

theorem State.ElementSet.cfgValid_eq (h : s.ElementSet a b t) : t.cfgValid = s.cfgValid := by rw [h.eq]

theorem State.ElementSet.capacity_eq (h : s.ElementSet a b t) : t.capacity = s.capacity := by rw [h.eq]

theorem State.ElementSet.bitWidth_eq (h : s.ElementSet a b t) : t.bitWidth = s.bitWidth := by rw [h.eq]

theorem State.ElementSet.cfg_eq (h : s.ElementSet a b t) : t.cfg = s.cfg := by rw [h.eq]

/-- The element holds the value modulo `2^BIT_WIDTH` (R106, R107). -/
theorem State.ElementSet.elem_eq (h : s.ElementSet a b t) : t.elem a.toNat = b.toNat % 2 ^ s.bitWidth.toNat := by
  refine Nat.eq_of_testBit_eq fun j => ?_
  rw [State.testBit_elem, h.bitWidth_eq, Nat.testBit_mod_two_pow]
  by_cases hj : j < s.bitWidth.toNat
  · rw [h.bits, if_pos (by omega), Nat.add_sub_cancel_left]
    rfl
  · simp [hj]

/-- A byte outside the words that the decoder selects reads as before: none of its bits lies in the element's span
(R104). -/
theorem State.ElementSet.readByte_eq (h : s.ElementSet a b t) (hw : s.bitWidth.toNat ≤ s.cfg.wordBits) {x : Nat}
    (hfirst : x / s.cfg.wordBytes ≠ (decodeAddr s.cfg.wordBits a.toNat s.bitWidth.toNat).wordIndex)
    (hsecond : ¬ ((decodeAddr s.cfg.wordBits a.toNat s.bitWidth.toNat).split = true ∧
      x / s.cfg.wordBytes = (decodeAddr s.cfg.wordBits a.toNat s.bitWidth.toNat).wordIndex + 1)) :
    t.storage.readByte x = s.storage.readByte x := by
  refine BitVec.eq_of_getLsbD_eq fun j hj => ?_
  have hbyte : (8 * x + j) / 8 = x := by omega
  have hbit : (8 * x + j) % 8 = j := by omega
  have hword : (8 * x + j) / s.cfg.wordBits = x / s.cfg.wordBytes := by
    rw [s.cfg.wordBits_eq, ← Nat.div_div_eq_div_mul, hbyte]
  have hout : ¬ (a.toNat * s.bitWidth.toNat ≤ 8 * x + j ∧ 8 * x + j < a.toNat * s.bitWidth.toNat + s.bitWidth.toNat) := by
    intro hspan
    have hsel := decodeAddr_word_of_mem_span s.cfg.wordBits_pos hw hspan
    rw [hword] at hsel
    exact hsel.elim hfirst hsecond
  have hsame := h.bits (8 * x + j)
  rwa [if_neg hout, State.bitAt, State.bitAt, h.cfg_eq, bitAt_eq_readByte s.cfg.eight_dvd_wordBits s.cfg.wordBits_pos,
    bitAt_eq_readByte s.cfg.eight_dvd_wordBits s.cfg.wordBits_pos, hbyte, hbit] at hsame

end ElementSet

/-- Settles O34, from the effect `State.ElementSet` of SET within the array. -/
theorem setWritesTheElementAlone : Obligations.SetWritesTheElementAlone := by
  intro s a b hs hv ha
  obtain ⟨t, hset, ht⟩ := hs.exec_set hv ha b
  refine ⟨t, hset, ht.elem_eq, fun x hout => ?_, fun x ⟨hfirst, hsecond⟩ => ?_, ht.eq⟩
  · rw [ht.bits, if_neg hout]
  · exact ht.readByte_eq (hs.bitWidth_le_wordBits hv) hfirst hsecond

/-! ## GET of the element -/

/-- The bits of the single-word masked read (spec/42_read.md R120). -/
theorem getLsbD_readSingle {W : Nat} (word : StorageWord W) {off w : Nat} (hfit : off + w ≤ W) (j : Nat) :
    (readSingle word off w).getLsbD j = (decide (j < w) && word.getLsbD (off + j)) := by
  rw [readSingle, BitVec.getLsbD_and, BitVec.getLsbD_ushiftRight, getLsbD_lowMask, Bool.and_comm]
  by_cases hj : j < w
  · simp [hj, show j < W by omega]
  · simp [hj]

/-- The bits of the split-word masked read, whose first group ends with the first word (R121). -/
theorem getLsbD_readSplit {W : Nat} (word0 word1 : StorageWord W) {off b2 : Nat} (hoff : off < W) (hfit : b2 ≤ off)
    (j : Nat) :
    (readSplit word0 word1 off (W - off) b2).getLsbD j =
      if j < W - off then word0.getLsbD (off + j)
      else decide (j < W - off + b2) && word1.getLsbD (j - (W - off)) := by
  simp only [readSplit, BitVec.getLsbD_or, BitVec.getLsbD_and, BitVec.getLsbD_ushiftRight, BitVec.getLsbD_shiftLeft,
    getLsbD_lowMask]
  by_cases hfirst : j < W - off
  · simp [hfirst, show j < W by omega]
  · by_cases hsecond : j < W - off + b2
    · simp [hfirst, hsecond, show j < W by omega, show j - (W - off) < W by omega, show j - (W - off) < b2 by omega]
    · simp [hfirst, hsecond, show ¬ j - (W - off) < b2 by omega]

/-- The element reader answers the stream's bits in the element's span (R122). -/
theorem getLsbD_of_readElement {W wc i w : Nat} {m : Mem} {v : StorageWord W} (hpos : 0 < W) (hw : w ≤ W)
    (h : readElement W wc m i w = .ok v) (j : Nat) :
    v.getLsbD j = (decide (j < w) && bitAt W m (i * w + j)) := by
  obtain ⟨_, hstart, hoff, hsplit, hfirst, hsecond⟩ := decodeAddr_spec hpos i w
  rcases readElement_cases W wc m i w with ⟨_, hs, e⟩ | ⟨_, hs, e⟩ | ⟨_, e⟩ <;> cases e.symm.trans h <;>
    rw [hs] at hsplit hfirst hsecond <;> generalize decodeAddr W i w = d at *
  · have hfit : d.bitOffset + w ≤ W := by simpa using hsplit
    rw [getLsbD_readSingle _ hfit]
    by_cases hj : j < w
    · rw [getLsbD_readWord_eq_bitAt (by omega), hstart, Nat.add_assoc]
    · simp [hj]
  · have hspan : W < d.bitOffset + w := by simpa using hsplit
    simp only [if_true] at hfirst hsecond
    rw [hfirst, hsecond, getLsbD_readSplit _ _ hoff (by omega), show W - d.bitOffset + (w - (W - d.bitOffset)) = w by omega]
    by_cases hlow : j < W - d.bitOffset
    · rw [if_pos hlow, getLsbD_readWord_eq_bitAt (by omega), hstart, Nat.add_assoc]
      simp [show j < w by omega]
    · rw [if_neg hlow]
      by_cases hj : j < w
      · rw [getLsbD_readWord_eq_bitAt (by omega), Nat.succ_mul, hstart]
        congr 2
        omega
      · simp [hj]

/-- The element reader answers the element's abstract value (spec/20_memory.md R44, spec/42_read.md R122). -/
theorem toNat_of_readElement {W wc i w : Nat} {m : Mem} {v : StorageWord W} (hpos : 0 < W) (hw : w ≤ W)
    (h : readElement W wc m i w = .ok v) : v.toNat = elemAt W m i w := by
  refine Nat.eq_of_testBit_eq fun j => ?_
  rw [elemAt, testBit_bitSum]
  exact getLsbD_of_readElement hpos hw h j

/-- From a state of the invariant GET within the array completes and answers the element's value (spec/42_read.md R124). -/
theorem State.Inv.exec_get {s : State} (hs : s.Inv) (hv : s.cfgValid = true) {a : Index} (ha : a < s.capacity) :
    exec (.get a) s = .next (s.respond .ok (BitVec.ofNat 64 (s.elem a.toNat))) := by
  rcases execGet_cases a s with ⟨hnv, _⟩ | ⟨_, hge, _⟩ | ⟨_, _, ⟨v, hr, e⟩ | ⟨f, herr, _⟩⟩
  · simp [hv] at hnv
  · exact absurd ha (BitVec.not_lt.2 hge)
  · have hvalue : v.toNat = s.elem a.toNat := toNat_of_readElement s.cfg.wordBits_pos (hs.bitWidth_le_wordBits hv) hr
    rw [← hvalue, BitVec.ofNat_toNat]
    exact e
  · exact absurd ((readElement_eq_error_iff _ _ _ _ _ f).1 herr) (hs.not_elementNotLive hv ha)

/-- Settles O36: SET leaves a state of the invariant whose element holds the value modulo `2^BIT_WIDTH`
(`State.ElementSet.elem_eq`), and GET answers the element (`State.Inv.exec_get`). -/
theorem setThenGetReturnsTheMaskedValue : Obligations.SetThenGetReturnsTheMaskedValue := by
  intro s i v hs hv hi
  obtain ⟨t, hset, ht⟩ := hs.exec_set hv hi v
  have hget := ht.inv.exec_get (ht.cfgValid_eq.trans hv) (hi.trans_eq ht.capacity_eq.symm)
  rw [ht.elem_eq] at hget
  refine ⟨t, _, hset, hget, rfl, fun hfits => ?_⟩
  rw [State.respond_rsp, Nat.mod_eq_of_lt hfits, BitVec.ofNat_toNat]

/-! ## The errors of SET -/

/-- Settles O40, by the two errors of SET. -/
theorem setErrors : Obligations.SetErrors :=
  fun _ _ _ => ⟨fun hv => execSet_of_absent hv, fun hv ha => execSet_of_out_of_range hv ha⟩

end Sys2Proof.Machine
end

section
/-! Proofs of the read's statements (spec/42_read.md): the masked reads bit by bit (R120, R121), the value that GET answers
(R122, R124) and what a SET leaves of it (R127, R128), and the errors of GET (R123, R129). -/

namespace Sys2Proof.Machine

/-! ## The masked reads -/

/-- Settles O32, by the bits of the two reads; the second group of a split element ends where the element does. -/
theorem maskedReadBits : Obligations.MaskedReadBits := by
  refine ⟨fun W x off w j hfit => getLsbD_readSingle x hfit j, fun W x0 x1 off w j hoff hspan hwide => ?_⟩
  have hgroups : W - off + (w - (W - off)) = w := by omega
  rw [getLsbD_readSplit x0 x1 hoff (by omega), hgroups]

/-! ## The value that GET answers -/

/-- An element's value has `BIT_WIDTH` bits (spec/20_memory.md R44). -/
theorem State.elem_lt (s : State) (i : Nat) : s.elem i < 2 ^ s.bitWidth.toNat := bitSum_lt _ _

/-- Settles O33: the answer is `State.Inv.exec_get`, and the width that bounds the value is at most 32. -/
theorem getReturnsTheElement : Obligations.GetReturnsTheElement := by
  intro s a hs hv ha
  have hlt := s.elem_lt a.toNat
  have hvalue : 2 ^ s.bitWidth.toNat ≤ 2 ^ 32 := Nat.pow_le_pow_right two_pos (hs.width hv).2
  exact ⟨hs.exec_get hv ha, hlt, hlt.trans_le hvalue⟩

/-! ## The other elements after SET -/

/-- The spans of two indices have no bit in common (spec/20_memory.md R42), so SET leaves the value of every other element
(R127). -/
theorem State.ElementSet.elem_of_ne {s t : State} {a : Index} {b : Value} (h : s.ElementSet a b t) {i : Nat}
    (hne : i ≠ a.toNat) : t.elem i = s.elem i := by
  refine Nat.eq_of_testBit_eq fun j => ?_
  rw [State.testBit_elem, State.testBit_elem, h.bitWidth_eq]
  by_cases hj : j < s.bitWidth.toNat
  · have hw : 0 < s.bitWidth.toNat := by omega
    have hspan : i = (i * s.bitWidth.toNat + j) / s.bitWidth.toNat := (mem_span_iff hw _ _).1 (by omega)
    rw [h.bits, if_neg fun hin => hne (hspan.trans ((mem_span_iff hw _ _).1 hin).symm)]
  · simp [hj]

/-- After SET within the array GET answers at every index of the array, with the element's value then. -/
theorem State.ElementSet.exec_get {s t : State} {a i : Index} {b : Value} (h : s.ElementSet a b t)
    (hv : s.cfgValid = true) (hi : i < s.capacity) :
    exec (.get i) t = .next (t.respond .ok (BitVec.ofNat 64 (t.elem i.toNat))) :=
  h.inv.exec_get (h.cfgValid_eq.trans hv) (hi.trans_eq h.capacity_eq.symm)

/-- Settles O37: GET answers the element's value before and after the SET (`State.Inv.exec_get`,
`State.ElementSet.exec_get`), which the SET of another element leaves (`State.ElementSet.elem_of_ne`). -/
theorem setKeepsOtherElements : Obligations.SetKeepsOtherElements := by
  intro s i j v hs hv hi hj hne
  obtain ⟨t, hset, ht⟩ := hs.exec_set hv hj v
  have hget := ht.exec_get hv hi
  rw [ht.elem_of_ne (BitVec.toNat_ne.1 hne)] at hget
  exact ⟨t, _, _, _, hset, hget, hs.exec_get hv hi, rfl, rfl, rfl⟩

/-! ## Elements of 9 bits in words of 64 -/

/-- The split indices below 64: those whose offset in the word is above `64 - 9` (R128). -/
theorem decodeAddr_split_nine_iff {i : Nat} (hi : i < 64) :
    (decodeAddr 64 i 9).split = true ↔ i ∈ [7, 14, 21, 28, 35, 42, 49, 56] := by
  rw [decodeAddr_split_iff (by decide) (by decide), decodeAddr_bitOffset]
  decide +revert

/-- Settles O29: the indices by `decodeAddr_split_nine_iff`; every one of them is below `CAPACITY`, where SET then GET
returns a value that fits the width (`setThenGetReturnsTheMaskedValue`). -/
theorem splitIndicesOfWidthNine : Obligations.SplitIndicesOfWidthNine := by
  refine ⟨fun i hi => decodeAddr_split_nine_iff hi, fun s i v hs hv _ hwidth hcap hmem hlt => ?_⟩
  have hbelow : ∀ k ∈ [7, 14, 21, 28, 35, 42, 49, 56], k < 64 := by decide
  have hi : i < s.capacity := BitVec.lt_def.2 ((hbelow _ hmem).trans_le hcap)
  have hfits : v.toNat < 2 ^ s.bitWidth.toNat := by rw [hwidth]; exact hlt
  obtain ⟨t, u, hset, hget, _, hexact⟩ := setThenGetReturnsTheMaskedValue s i v hs hv hi
  exact ⟨t, u, hset, hget, hexact hfits⟩

/-! ## The errors of GET -/

/-- Settles O41, by the two errors of GET. -/
theorem getErrors : Obligations.GetErrors :=
  fun _ _ => ⟨fun hv => execGet_of_absent hv, fun hv ha => execGet_of_out_of_range hv ha⟩

end Sys2Proof.Machine
end

section
/-! Proofs of the statements of DESTROY and SIZE (spec/43_teardown_accessor.md): the release of the array (R140), what a
host finds after it (R141), and the size in bytes (R142). -/

namespace Sys2Proof.Machine

/-! ## DESTROY -/

/-- Settles O42, by the two cases of DESTROY. -/
theorem destroyEffect : Obligations.DestroyEffect :=
  fun _ => ⟨fun hv => execDestroy_of_absent hv, fun hv => execDestroy_of_present hv⟩

/-- DESTROY always answers OK, and no array is present then: either none was, or it is released (R140). -/
theorem execDestroy_leaves_absent (s : State) :
    ∃ t, execDestroy s = .next t ∧ t.cfgValid = false ∧ t.cfg = s.cfg ∧ t.rsp = some { status := .ok, data := 0#64 } := by
  cases hv : s.cfgValid with
  | false => exact ⟨_, execDestroy_of_absent hv, hv, rfl, rfl⟩
  | true => exact ⟨_, execDestroy_of_present hv, rfl, rfl, rfl⟩

/-- With no array a CREATE that fits makes an array of zeros, whatever storage holds (spec/40_construction.md R84, R86). -/
theorem execCreate_then_execGet {s : State} {a : Index} {b : Value} (hv : s.cfgValid = false)
    (hfits : wordcount s.cfg.wordBits a.toNat (bitwidth b) ≤ s.cfg.maxWords) :
    ∃ t, execCreate a b s = .next t ∧ t.rsp = some { status := .ok, data := 0#64 } ∧
      ∀ i : Index, i < a → execGet i t = .next t :=
  ⟨_, execCreate_of_fits hv hfits, rfl, fun _ hi => execGet_created s b hi⟩

/-- Settles O43: DESTROY leaves no array (`execDestroy_leaves_absent`), so SET, GET and SIZE raise `NO_ARRAY`, a second
DESTROY answers OK, and CREATE zero-fills the words of the new array (`execCreate_then_execGet`). -/
theorem destroyedArrayIsNotReusable : Obligations.DestroyedArrayIsNotReusable := by
  intro s
  obtain ⟨t, hdestroy, habsent, hcfg, _⟩ := execDestroy_leaves_absent s
  obtain ⟨u, hagain, _, _, hok⟩ := execDestroy_leaves_absent t
  refine ⟨t, hdestroy, hcfg, fun a b => ⟨_, execSet_of_absent habsent, rfl⟩, fun a => ⟨_, execGet_of_absent habsent, rfl⟩,
    ⟨_, execSize_of_absent habsent, rfl⟩, ⟨u, hagain, hok⟩, fun a b hfits => ?_⟩
  rw [← hcfg] at hfits
  obtain ⟨v, hcreate, hrsp, hget⟩ := execCreate_then_execGet habsent hfits
  exact ⟨v, hcreate, hrsp, fun i hi => ⟨v, hget i hi, hrsp⟩⟩

/-! ## SIZE -/

/-- The size in bytes fits the response's data field: at most `MAX_WORDS` words are live, and the constraint on
`MAX_WORDS` (spec/00_scope.md R10) bounds them all. -/
theorem State.Inv.size_lt {s : State} (hs : s.Inv) : s.wordCount * s.cfg.wordBytes < 2 ^ 64 :=
  (Nat.mul_le_mul_right _ hs.wordCount_le).trans_lt hs.legal

/-- Settles O44, by the two cases of SIZE; a size below `2^64` is not cut by the data field, and in a state of the
invariant it is below (`State.Inv.size_lt`). -/
theorem sizeEffect : Obligations.SizeEffect := by
  refine ⟨fun s hv => execSize_of_absent hv, fun s hv hlt => ?_, fun s hs => hs.size_lt⟩
  refine ⟨_, execSize_of_present hv, ?_⟩
  rw [BitVec.toNat_ofNat]
  exact Nat.mod_eq_of_lt hlt

end Sys2Proof.Machine
end

section
/-! Proofs of the statements of the exceptions (spec/60_exceptions.md): the one status that is reported (R152), what
`ERR_STICKY` does not influence (R155), what a clean `ERR_STICKY` says of a host's run (R158), and idle edges (R165). -/

namespace Sys2Proof.Machine

/-! ## The first status that applies -/

/-- `t` offers a response with the first status that applies to `w` in `s`, and its `ERR_STICKY` is that of `s` with the
bit of that status added. -/
structure State.ReportsFirst (w : CmdWord) (s t : State) : Prop where
  rsp : ∃ data, t.rsp = some { status := s.firstStatus w, data := data }
  errSticky : t.errSticky = s.errSticky ||| (s.firstStatus w).stickyBit

theorem State.reportsFirst_raiseError {w : CmdWord} {s : State} {c : Status} (h : s.firstStatus w = c) :
    s.ReportsFirst w (s.raiseError c) := by
  subst h
  exact ⟨⟨_, rfl⟩, rfl⟩

/-- `OK` has no bit in `ERR_STICKY` (spec/10_state.md R26). -/
theorem State.OkAnswer.reportsFirst {w : CmdWord} {s t : State} (h : s.OkAnswer t) (hfirst : s.firstStatus w = .ok) :
    s.ReportsFirst w t := by
  refine ⟨?_, ?_⟩
  · rw [hfirst]
    exact h.rsp
  · rw [hfirst, h.errSticky, Status.stickyBit_ok, BitVec.or_zero]

section FirstStatus

variable {w : CmdWord} {a : Index} {b : Value} (s : State)

theorem State.firstStatus_of_illegal {e : DecodeError} (hw : decode w = .error e) : s.firstStatus w = .illegal := by
  simp [State.firstStatus, statusOrder, State.hasCause, hw]

theorem State.firstStatus_of_create (hw : decode w = .ok (.create a b)) : s.firstStatus w =
    if s.cfgValid then .inUse
    else if s.cfg.maxWords < wordcount s.cfg.wordBits a.toNat (bitwidth b) then .allocFail else .ok := by
  split_ifs <;> simp [State.firstStatus, statusOrder, State.hasCause, *]

/-- SET and GET have the same causes of an error, in the same order (R152). -/
theorem State.firstStatus_of_access (hw : (∃ b, decode w = .ok (.set a b)) ∨ decode w = .ok (.get a)) :
    s.firstStatus w = if s.cfgValid then (if s.capacity ≤ a then .outOfRange else .ok) else .noArray := by
  rcases hw with ⟨b, hw⟩ | hw
  · split_ifs <;> simp [State.firstStatus, statusOrder, State.hasCause, *]
  · split_ifs <;> simp [State.firstStatus, statusOrder, State.hasCause, *]

theorem State.firstStatus_of_destroy (hw : decode w = .ok .destroy) : s.firstStatus w = .ok := by
  simp [State.firstStatus, statusOrder, State.hasCause, hw]

theorem State.firstStatus_of_size (hw : decode w = .ok .size) :
    s.firstStatus w = if s.cfgValid then .ok else .noArray := by
  split_ifs <;> simp [State.firstStatus, statusOrder, State.hasCause, *]

end FirstStatus

/-- From a state of the invariant every command completes and reports the first status whose cause holds: SET and GET do not
fault, because the words of an element of the array are live. -/
theorem State.Inv.exec_reportsFirst {s : State} (hs : s.Inv) {w : CmdWord} {i : Instr} (hw : decode w = .ok i) :
    ∃ t, exec i s = .next t ∧ s.ReportsFirst w t := by
  cases i with
  | create a b =>
    have hfirst := s.firstStatus_of_create hw
    rcases execCreate_cases a b s with ⟨hv, e⟩ | ⟨hv, hlarge, e⟩ | ⟨hv, hfit, e⟩ <;> refine ⟨_, e, ?_⟩
    · exact reportsFirst_raiseError (by simp [hfirst, hv])
    · exact reportsFirst_raiseError (by simp [hfirst, hv, hlarge])
    · exact OkAnswer.reportsFirst ⟨rfl, rfl, rfl, _, rfl⟩ (by simp [hfirst, hv, Nat.not_lt.2 hfit])
  | set a b =>
    have hfirst := s.firstStatus_of_access (.inl ⟨b, hw⟩)
    rcases execSet_cases a b s with ⟨hv, e⟩ | ⟨hv, ha, e⟩ | ⟨hv, ha, ⟨m, _, e⟩ | ⟨f, herr, _⟩⟩
    · exact ⟨_, e, reportsFirst_raiseError (by simp [hfirst, hv])⟩
    · exact ⟨_, e, reportsFirst_raiseError (by simp [hfirst, hv, ha])⟩
    · exact ⟨_, e, OkAnswer.reportsFirst ⟨rfl, rfl, rfl, _, rfl⟩ (by simp [hfirst, hv, BitVec.not_le.2 ha])⟩
    · exact absurd ((writeElement_eq_error_iff _ _ _ _ _ _ f).1 herr) (hs.not_elementNotLive hv ha)
  | get a =>
    have hfirst := s.firstStatus_of_access (.inr hw)
    rcases execGet_cases a s with ⟨hv, e⟩ | ⟨hv, ha, e⟩ | ⟨hv, ha, ⟨v, _, e⟩ | ⟨f, herr, _⟩⟩
    · exact ⟨_, e, reportsFirst_raiseError (by simp [hfirst, hv])⟩
    · exact ⟨_, e, reportsFirst_raiseError (by simp [hfirst, hv, ha])⟩
    · exact ⟨_, e, OkAnswer.reportsFirst ⟨rfl, rfl, rfl, _, rfl⟩ (by simp [hfirst, hv, BitVec.not_le.2 ha])⟩
    · exact absurd ((readElement_eq_error_iff _ _ _ _ _ f).1 herr) (hs.not_elementNotLive hv ha)
  | destroy =>
    have hfirst := s.firstStatus_of_destroy hw
    rcases execDestroy_cases s with ⟨_, e⟩ | ⟨_, e⟩ <;>
      exact ⟨_, e, OkAnswer.reportsFirst ⟨rfl, rfl, rfl, _, rfl⟩ hfirst⟩
  | size =>
    have hfirst := s.firstStatus_of_size hw
    rcases execSize_cases s with ⟨hv, e⟩ | ⟨hv, e⟩
    · exact ⟨_, e, reportsFirst_raiseError (by simp [hfirst, hv])⟩
    · exact ⟨_, e, OkAnswer.reportsFirst ⟨rfl, rfl, rfl, _, rfl⟩ (by simp [hfirst, hv])⟩

/-- Settles O46: a word that is no command raises ILLEGAL, the first in the order, and a command reports by
`State.Inv.exec_reportsFirst`. -/
theorem firstApplicableStatusIsReported : Obligations.FirstApplicableStatusIsReported := by
  intro w s hs
  have reported : ∃ t, runCommand w s = .next t ∧ s.ReportsFirst w t := by
    cases hw : decode w with
    | error e => exact ⟨_, runCommand_of_illegal hw, State.reportsFirst_raiseError (s.firstStatus_of_illegal hw)⟩
    | ok i =>
      rw [runCommand_of_decode hw]
      exact hs.exec_reportsFirst hw
  obtain ⟨t, hrun, ⟨data, hrsp⟩, hsticky⟩ := reported
  exact ⟨t, _, hrun, hrsp, rfl, hsticky⟩

/-! ## Two runs that remember different errors -/

/-- Run on `s` with `ERR_STICKY` at `e`, the machine completes in `t` but for what `ERR_STICKY` holds. -/
def SameButSticky (run : State → Host.Outcome State Fault Refusal) (s : State) (e : BitVec 6) (t : State) : Prop :=
  ∃ e', run { s with errSticky := e } = .next { t with errSticky := e' }

/-- No meaning looks at `ERR_STICKY` (R155). -/
theorem exec_sameButSticky {i : Instr} {s t : State} (h : exec i s = .next t) (e : BitVec 6) :
    SameButSticky (exec i) s e t := by
  cases i with
  | create a b =>
    rcases execCreate_cases a b s with ⟨hv, e'⟩ | ⟨hv, hw, e'⟩ | ⟨hv, hw, e'⟩ <;> cases e'.symm.trans h
    · exact ⟨_, execCreate_of_present hv⟩
    · exact ⟨_, execCreate_of_too_large hv hw⟩
    · exact ⟨_, execCreate_of_fits hv hw⟩
  | set a b =>
    rcases execSet_cases a b s with ⟨hv, e'⟩ | ⟨hv, ha, e'⟩ | ⟨hv, ha, ⟨m, hm, e'⟩ | ⟨_, _, e'⟩⟩ <;>
      cases e'.symm.trans h
    · exact ⟨_, execSet_of_absent hv⟩
    · exact ⟨_, execSet_of_out_of_range hv ha⟩
    · exact ⟨_, execSet_of_written hv ha hm⟩
  | get a =>
    rcases execGet_cases a s with ⟨hv, e'⟩ | ⟨hv, ha, e'⟩ | ⟨hv, ha, ⟨v, hr, e'⟩ | ⟨_, _, e'⟩⟩ <;>
      cases e'.symm.trans h
    · exact ⟨_, execGet_of_absent hv⟩
    · exact ⟨_, execGet_of_out_of_range hv ha⟩
    · exact ⟨_, execGet_of_read hv ha hr⟩
  | destroy =>
    rcases execDestroy_cases s with ⟨hv, e'⟩ | ⟨hv, e'⟩ <;> cases e'.symm.trans h
    · exact ⟨_, execDestroy_of_absent hv⟩
    · exact ⟨_, execDestroy_of_present hv⟩
  | size =>
    rcases execSize_cases s with ⟨hv, e'⟩ | ⟨hv, e'⟩ <;> cases e'.symm.trans h
    · exact ⟨_, execSize_of_absent hv⟩
    · exact ⟨_, execSize_of_present hv⟩

theorem runCommand_sameButSticky {w : CmdWord} {s t : State} (h : runCommand w s = .next t) (e : BitVec 6) :
    SameButSticky (runCommand w) s e t := by
  cases hw : decode w with
  | error _ =>
    cases (runCommand_of_illegal hw).symm.trans h
    exact ⟨_, runCommand_of_illegal hw⟩
  | ok i =>
    rw [SameButSticky, runCommand_of_decode hw]
    exact exec_sameButSticky ((runCommand_of_decode hw).symm.trans h) e

/-- The handshake does not look at `ERR_STICKY` either (spec/30_encoding.md R67). -/
theorem onEdge_sameButSticky {p : PortIn} {s t : State} (h : onEdge p s = .next t) (e : BitVec 6) :
    SameButSticky (onEdge p) s e t := by
  rcases onEdge_cases p s with ⟨hrst, e'⟩ | ⟨hrst, hcmd, hrsp, e'⟩ | ⟨hrst, hready, hrsp, e'⟩ | ⟨hrst, hcmd, htake, e'⟩
  · cases e'.symm.trans h
    exact ⟨_, onEdge_of_rst hrst⟩
  · rw [SameButSticky, onEdge_of_accept (s := { s with errSticky := e }) hrst hcmd hrsp]
    exact runCommand_sameButSticky (e'.symm.trans h) e
  · cases e'.symm.trans h
    exact ⟨_, onEdge_of_take hrst hready hrsp⟩
  · cases e'.symm.trans h
    exact ⟨_, onEdge_of_idle hrst hcmd htake⟩

theorem step_sameButSticky {s t : State} (h : step s = .next t) (e : BitVec 6) : SameButSticky step s e t := by
  rcases step_next_cases h with ⟨hin, rfl⟩ | ⟨p, rest, hin, hedge⟩
  · exact ⟨e, step_nil hin⟩
  · rw [SameButSticky, step_cons (s := { s with errSticky := e }) hin]
    exact onEdge_sameButSticky hedge e

/-- Settles O48: words and steps by `SameButSticky`; the ports' levels do not read `ERR_STICKY`. -/
theorem errorsNeverBlockLaterCommands : Obligations.ErrorsNeverBlockLaterCommands := by
  refine ⟨fun w s t e h => ?_, fun s p e => ⟨rfl, rfl, fun hrst hrsp => ?_⟩, fun s t e h => ?_⟩
  · obtain ⟨e', hrun⟩ := runCommand_sameButSticky h e
    exact ⟨_, hrun, rfl⟩
  · obtain ⟨hready, _⟩ := State.ports_of_no_response (s := { s with errSticky := e }) hrst hrsp
    exact hready
  · obtain ⟨e', hstep⟩ := step_sameButSticky h e
    exact ⟨_, hstep, rfl⟩

/-! ## A run without errors -/

theorem State.clean_iff (s : State) : s.clean ↔ ∀ j, s.errStickyPort.getLsbD j = false := by
  refine ⟨fun h j => ?_, fun h => BitVec.eq_of_getLsbD_eq fun j _ => ?_⟩
  · rw [show s.errStickyPort = 0#6 from h, BitVec.getLsbD_zero]
  · rw [h j, BitVec.getLsbD_zero]

/-- An error leaves its bit at the port (spec/10_state.md R26). -/
theorem State.not_clean_raiseError (s : State) {c : Status} (hc : c ≠ .ok) : ¬ (s.raiseError c).clean := by
  intro hclean
  have hbit := (State.clean_iff _).1 hclean c.code.toNat
  rw [s.getLsbD_errStickyPort_raiseError hc] at hbit
  simp at hbit

/-- A command word that completes with a clean port has answered OK (R158). -/
theorem runCommand_ok_of_clean {w : CmdWord} {s t : State} (h : runCommand w s = .next t) (hclean : t.clean) :
    ∃ r, t.rsp = some r ∧ r.status = .ok := by
  rcases runCommand_next_cases h with ⟨c, hc, rfl⟩ | hok
  · exact absurd hclean (s.not_clean_raiseError hc)
  · obtain ⟨data, hrsp⟩ := hok.rsp
    exact ⟨_, hrsp, rfl⟩

/-- An edge without reset that ends with a clean port began with one, as it clears no bit. -/
theorem onEdge_clean_before {p : PortIn} {s t : State} (hrst : p.rst = false) (h : onEdge p s = .next t)
    (hclean : t.clean) : s.clean := by
  refine s.clean_iff.2 fun j => Bool.eq_false_iff.2 fun hset => ?_
  have hkept := onEdge_keeps_sticky hrst h hset
  rw [t.clean_iff.1 hclean j] at hkept
  cases hkept

/-- Settles O49: before the step by `onEdge_clean_before`, and the accepted word by `runCommand_ok_of_clean`. -/
theorem cleanStickyMeansNoErrorHappened : Obligations.CleanStickyMeansNoErrorHappened := by
  intro s t p rest hin hrst h hclean
  rw [step_cons hin] at h
  refine ⟨(onEdge_clean_before hrst h hclean :), fun hcmd hrsp => ?_⟩
  rw [onEdge_of_accept (s := { s with inputs := rest }) hrst hcmd hrsp] at h
  exact runCommand_ok_of_clean h hclean

/-! ## Idle edges -/

/-- Settles O12: no edge at all (`step_nil`), or an edge at which nothing is accepted or taken (`onEdge_of_idle`). -/
theorem idleKeepsTheState : Obligations.IdleKeepsTheState := by
  refine ⟨fun s hin => step_nil hin, fun s p rest hin hrst hcmd hready => ?_⟩
  rw [step_cons hin]
  exact onEdge_of_idle hrst (by simp [hcmd]) (by simp [hready])

end Sys2Proof.Machine
end

section
/-! Proofs of the statements of reset and progress (spec/70_reset_and_hazards.md): a reset whatever was under way (R171),
and no stuck state (R181). -/

namespace Sys2Proof.Machine

/-! ## Reset -/

/-- What a reset leaves: the reset state of the same instance, but for the storage and the host's remaining script
(spec/10_state.md R35, R170). -/
theorem State.applyReset_eq_resetWith (s : State) :
    s.applyReset = { State.resetWith s.cfg with storage := s.storage, inputs := s.inputs } := rfl

/-- Settles O10: an edge with `rst` 1 resets whatever waits (`onEdge_of_rst`), and the storage left is the one before. -/
theorem resetGivesTheResetState : Obligations.ResetGivesTheResetState := by
  intro s p rest hin hrst
  refine ⟨s.storage, ?_⟩
  rw [step_cons hin, onEdge_of_rst hrst, State.applyReset_eq_resetWith]

/-! ## Progress -/

/-- From a state of the invariant every command word completes and a response is offered: the one of the first status that
applies (`firstApplicableStatusIsReported`). -/
theorem State.Inv.runCommand_answers {s : State} (hs : s.Inv) (w : CmdWord) :
    ∃ t, runCommand w s = .next t ∧ t.rsp.isSome = true := by
  obtain ⟨t, r, hrun, hrsp, _⟩ := firstApplicableStatusIsReported w s hs
  exact ⟨t, hrun, Option.isSome_of_eq_some hrsp⟩

/-- From a state of the invariant every edge completes: only the acceptance of a command word could fail to. -/
theorem State.Inv.onEdge_completes {s : State} (hs : s.Inv) (p : PortIn) : ∃ t, onEdge p s = .next t := by
  rcases onEdge_cases p s with ⟨_, hreset⟩ | ⟨_, _, _, haccept⟩ | ⟨_, _, _, htake⟩ | ⟨_, _, _, hidle⟩
  · exact ⟨_, hreset⟩
  · obtain ⟨t, hrun, _⟩ := hs.runCommand_answers p.cmdWord
    exact ⟨t, haccept.trans hrun⟩
  · exact ⟨_, htake⟩
  · exact ⟨_, hidle⟩

/-- Settles O16: the step by whether the host has an edge left (`State.Inv.onEdge_completes`), the words by
`State.Inv.runCommand_answers`. -/
theorem everyStepCompletes : Obligations.EveryStepCompletes := by
  refine fun s hs => ⟨?_, hs.runCommand_answers⟩
  cases hin : s.inputs with
  | nil => exact ⟨s, step_nil hin⟩
  | cons p rest =>
    rw [step_cons hin]
    exact (hs.withInputs rest).onEdge_completes p

end Sys2Proof.Machine
end
